-- ==== Sys2Proof/Word.lean ====
section
/-! DEFINITION. The widths the block works in (00_scope.md R12, 10_state.md R31, R32): bytes, 16-bit
operand fields and samples, the 64-bit RESULT. -/

namespace Sys2Proof

/-- A u8: one byte of the operation stream, of the wire or of the frame buffer. -/
abbrev Byte := BitVec 8

/-- A u16: a coordinate, a size, a CHUNK or LEN field, an RGB565 sample. -/
abbrev U16 := BitVec 16

/-- A u64: the RESULT of a response (R32). -/
abbrev U64 := BitVec 64

end Sys2Proof
end

