-- ==== Sys2Proof/Config.lean ====
section
/-! DEFINITION. What is fixed when the block is constructed (00_scope.md R10), and the two free values
of the spec: the frame buffer's contents at construction and the bus agent's answers. -/

namespace Sys2Proof

/-- The SPI-bus agent's answer to one `Xfer` (00_scope.md R7, R14). -/
inductive Ack where
  | ok
  | err
  deriving DecidableEq, Repr, Inhabited

/-- A record of `INIT_BODY`: a command byte and its data bytes, possibly none
(42_register_protocol.md R161). `INIT_BODY` holds no `Wait` record (R162), so its type has none. -/
structure InitCmd where
  cmd  : Byte
  data : List Byte
  deriving DecidableEq, Repr

/-- A record of `INIT_TABLE` (42_register_protocol.md R161). -/
inductive InitRecord where
  /-- `Cmd(c, d)`: a command byte and its data bytes. -/
  | cmd (c : Byte) (d : List Byte)
  /-- `Wait(ms)`: a settle delay. -/
  | wait (ms : Nat)
  deriving DecidableEq, Repr

/-- The implementation parameters of 00_scope.md R10, held by the configuration registers
(10_state.md R44). `SPI_MODE` and `CHUNK_DEFAULT` are hard-wired (R45) and are constants of
Machine/Operands.lean; `FB_INIT` is `Config.fbInit`. Sizes are naturals so that a construction with a
size outside 1..65535 can be written down (60_exceptions.md R211). -/
structure Params where
  /-- `WIDTH`: panel width in pixels. -/
  width     : Nat
  /-- `HEIGHT`: panel height in pixels. -/
  height    : Nat
  /-- `HAS_RST`: a reset line is configured. -/
  hasRst    : Bool
  /-- `DC_LINE`: identifier of the D/C line (OPEN). -/
  dcLine    : Nat
  /-- `RST_LINE`: identifier of the reset line (OPEN). -/
  rstLine   : Nat
  /-- `SPI_DEVICE`: the bytes of the bus device's path (OPEN). -/
  spiDevice : List Byte
  /-- `SPI_HZ`: the bus clock (OPEN). -/
  spiHz     : Nat
  /-- `INIT_BODY`: the init table before its fixed tail (OPEN, R162). -/
  initBody  : List InitCmd
  /-- `CMD_CASET`: Column-Address-Set (R106). -/
  cmdCaset  : Byte
  /-- `CMD_PASET`: Row-Address-Set (R106). -/
  cmdPaset  : Byte
  /-- `CMD_RAMWR`: Memory-Write (R106). -/
  cmdRamwr  : Byte
  /-- `CMD_SLPOUT`: Sleep-Out (R106). -/
  cmdSlpout : Byte
  /-- `CMD_DISPON`: Display-On (R106). -/
  cmdDispon : Byte
  /-- `LANES`: pixels converted per converter step, at least one (40_pixel_codec.md R124). -/
  lanes     : { n : Nat // 0 < n }
  deriving DecidableEq, Repr

/-- What the platform answers while the block is constructed (60_exceptions.md R211,
70_reset_and_hazards.md R240): whether each line identifier is valid and whether the bus device opens. -/
structure Platform where
  dcLineValid  : Bool
  rstLineValid : Bool
  busOpens     : Bool
  deriving DecidableEq, Repr

/-- `FB_INIT` (00_scope.md R10, 10_state.md R46): the byte the frame buffer holds at an address that no
operation has written since construction. A free value (log 4): the spec calls it "any value, a draw". -/
opaque Config.fbInit : Nat → Byte

/-- `BusAck()` (00_scope.md R14): the bus agent's answer to the n-th `Xfer` since construction, where
`State.answers` fixes none. A free value (log 5): the spec calls the answer a draw. -/
opaque Config.busAck : Nat → Ack

end Sys2Proof
end

