-- ==== Sys2Proof/Machine/Parameters.lean ====
section
/-! DEFINITION. The hard-wired parameters and timing constants (00_scope.md R10, R11), the parameters
the reset state is constructed with, the configuration check of construction (60_exceptions.md R211) and
the init table (42_register_protocol.md R160). -/

namespace Sys2Proof

/-- `CHUNK_DEFAULT`, hard-wired (00_scope.md R10, 10_state.md R45). -/
def chunkDefault : Nat := 64

/-- `SPI_MODE`, hard-wired: clock idle low, sample on the leading edge (00_scope.md R10, R45). -/
def spiMode : Nat := 0

/-- The three delays of the reset pulse in milliseconds (00_scope.md R11, 41_bus_framer.md R150). -/
def pulseHighMs : Nat := 5
/-- See `pulseHighMs`. -/
def pulseLowMs : Nat := 20
/-- See `pulseHighMs`. -/
def pulseSettleMs : Nat := 150

/-- The settle delay after Sleep-Out in milliseconds (00_scope.md R11, 42_register_protocol.md R160). -/
def sleepOutSettleMs : Nat := 120

/-- The parameters `State.reset` is constructed with. Sizes are the defaults of 00_scope.md R10 and the
command codes those of 30_encoding.md R106 (PRESUMED, log 3); HAS_RST and INIT_BODY are the
configuration of 95_test_vectors.md (DESIGN CHOICE, log 1); the OPEN rest is named in log 2
(DESIGN CHOICE). -/
def Params.standard : Params where
  width := 240
  height := 320
  hasRst := true
  dcLine := 0
  rstLine := 0
  spiDevice := []
  spiHz := 0
  initBody := []
  cmdCaset := 0x2A
  cmdPaset := 0x2B
  cmdRamwr := 0x2C
  cmdSlpout := 0x11
  cmdDispon := 0x29
  lanes := ⟨1, Nat.one_pos⟩

/-- WIDTH and HEIGHT are each in 1..65535 (60_exceptions.md R211). -/
def Params.sizeOk (p : Params) : Bool :=
  decide (1 ≤ p.width ∧ p.width ≤ 65535 ∧ 1 ≤ p.height ∧ p.height ≤ 65535)

/-- Construction succeeds: none of the cases of 60_exceptions.md R211 holds. -/
def Params.constructs (p : Params) (pl : Platform) : Bool :=
  p.sizeOk && pl.dcLineValid && (!p.hasRst || pl.rstLineValid) && pl.busOpens

/-- The size of the frame buffer in bytes (10_state.md R46). -/
def Params.fbSize (p : Params) : Nat := 3 * p.width * p.height

/-- The fixed tail of the init table: Sleep-Out, the settle delay, Display-On (R160). -/
def initTail (p : Params) : List InitRecord :=
  [.cmd p.cmdSlpout [], .wait sleepOutSettleMs, .cmd p.cmdDispon []]

/-- `INIT_TABLE` (42_register_protocol.md R160): the init body, then the fixed tail. -/
def initTable (p : Params) : List InitRecord :=
  p.initBody.map (fun e => InitRecord.cmd e.cmd e.data) ++ initTail p

end Sys2Proof
end

