-- ==== Sys2Proof/Machine/State.lean ====
section
/-! DEFINITION. The state of the block (10_state.md R30 to R50), the observation (00_scope.md R8), the
reasons a step can stop, and the state after construction (70_reset_and_hazards.md R240). -/

namespace Sys2Proof.Machine

/-- A level of the D/C or the reset line (00_scope.md R8). -/
inductive Level where
  | low
  | high
  deriving DecidableEq, Repr

/-- The lifecycle state `S.lc` (10_state.md R37). -/
inductive Lifecycle where
  | constructed
  | reset
  | initialized
  | ready
  deriving DecidableEq, Repr

/-- The window tracker `S.win` (10_state.md R41). -/
inductive Window where
  /-- NONE: no window write is open. -/
  | none
  /-- OPEN(rem): `rem` more pixel-data bytes are due. -/
  | opened (rem : Nat)
  /-- UNKNOWN: the panel's pointer is in an unknown state. -/
  | unknown
  deriving DecidableEq, Repr

/-- An event of the wire trace (00_scope.md R8). -/
inductive Event where
  /-- `Dc(l)`: a write of the D/C line. -/
  | dc (l : Level)
  /-- `Rst(l)`: a write of the reset line. -/
  | rst (l : Level)
  /-- `Xfer(bs)`: one SPI bus-write transaction. -/
  | xfer (bs : List Byte)
  /-- `Wait(ms)`: a blocking delay of at least `ms` milliseconds. -/
  | wait (ms : Nat)
  deriving DecidableEq, Repr

/-- The STATUS names of 60_exceptions.md R210; `Status.code` gives their codes. -/
inductive Status where
  | ok
  | configError
  | geometryError
  | transportError
  | illegalOp
  deriving DecidableEq, Repr

/-- The response to one operation (10_state.md R32). -/
structure Response where
  status : Status
  result : U64
  deriving DecidableEq, Repr

/-- The block's state. `answers` and `xfers` are the model's own (log 5); every other field is the
spec's, by the rule its line cites. -/
structure State where
  /-- The configuration registers, constant after construction (R44). -/
  cfg       : Params
  /-- The host operation stream from position 0: all bytes the host has supplied (R60, R90). -/
  stream    : List Byte
  /-- `S.opPos`: the index in the stream of the next byte to decode (R33). -/
  opPos     : Nat
  /-- `S.seqIdx`: the init sequencer's step index (R34). -/
  seqIdx    : Nat
  /-- `S.lc`: the lifecycle state (R37). -/
  lc        : Lifecycle
  /-- `S.dc`: the level last written to the D/C line; `none` is X, never written (R38). -/
  dc        : Option Level
  /-- `S.rst`: the level last written to the reset line; `none` is X (R39). -/
  rst       : Option Level
  /-- `S.busOpen`: the bus session is open (R40). -/
  busOpen   : Bool
  /-- `S.win`: the window tracker (R41). -/
  win       : Window
  /-- `S.haz`: the sticky hazard register, bit 0 UNDERRUN, 1 OVERRUN, 2 UNKNOWN_POS (R42). -/
  haz       : BitVec 3
  /-- `S.dead`: construction failed (R43). -/
  dead      : Bool
  /-- `S.fb`: the frame-buffer bytes written since construction, by address (R46, R63). A byte not
  listed holds `FB_INIT` (log 4). -/
  fb        : List Host.Cell
  /-- The wire trace, in the order of emission (00_scope.md R8). -/
  trace     : List Event
  /-- The responses returned to the host, oldest first (00_scope.md R8, R32). -/
  responses : List Response
  /-- MODEL: the bus agent's answers to the next `Xfer`s, oldest first, where the environment has fixed
  them (log 5). -/
  answers   : List Ack
  /-- MODEL: how many `Xfer`s the bus agent has answered (log 5). -/
  xfers     : Nat
  deriving DecidableEq, Repr

/-- The block has no fault: an error ends the operation and is reported in its response, it is not a
trap (60_exceptions.md R217), and a truncated stream is not a fault (30_encoding.md R100). So there is
no constructor; safe, since nothing is stopped. -/
inductive Fault where
  deriving DecidableEq, Repr

/-- Why an instruction has no meaning. No arm of `exec` refuses at present. -/
inductive Refusal where
  /-- Raised by an arm of `exec` whose instruction has no meaning yet. Safe: the machine stops. -/
  | notModelled (mnemonic : String)
  deriving DecidableEq, Repr

/-- The block as a valid construction with the parameters `p` leaves it (10_state.md R50). `seqIdx` has
no value in the spec: 0, DESIGN CHOICE (log 6). The stream and the responses are empty, since the host
has sent nothing (DEDUCED, logs 10 and 25). No bus answer is fixed (DESIGN CHOICE, log 5). -/
def State.constructed (p : Params) : State where
  cfg := p
  stream := []
  opPos := 0
  seqIdx := 0
  lc := .constructed
  dc := none
  rst := none
  busOpen := true
  win := .none
  haz := 0
  dead := false
  fb := []
  trace := []
  responses := []
  answers := []
  xfers := 0

/-- The machine right after reset: construction, the block's only reset (70_reset_and_hazards.md R242),
with the parameters `Params.standard`. -/
def State.reset : State := State.constructed Params.standard

end Sys2Proof.Machine
end

