-- ==== Sys2Proof/Machine/Flags.lean ====
section
/-! DEFINITION. The block has no arithmetic flags (10_state.md R36). Its sticky hazard register and the
window tracker are updated at the start of every send (41_bus_framer.md R148, R149). -/

namespace Sys2Proof.Machine

/-- `S.haz` bit 0 (10_state.md R42). -/
def hazUnderrun : BitVec 3 := 0b001
/-- `S.haz` bit 1 (10_state.md R42). -/
def hazOverrun : BitVec 3 := 0b010
/-- `S.haz` bit 2 (10_state.md R42). -/
def hazUnknownPos : BitVec 3 := 0b100

/-- Write the window tracker. -/
def State.setWin (s : State) (w : Window) : State := { s with win := w }

/-- Set bits of the hazard register; no operation clears one (10_state.md R42). -/
def State.raiseHaz (s : State) (bits : BitVec 3) : State := { s with haz := s.haz ||| bits }

/-- `TrackCmd()` (41_bus_framer.md R148). -/
def State.trackCmd (s : State) : State :=
  match s.win with
  | .opened rem => ((if rem > 0 then s.raiseHaz hazUnderrun else s)).setWin .none
  | .none => s.setWin .none
  | .unknown => s.setWin .none

/-- `TrackData(n)` (41_bus_framer.md R149). -/
def State.trackData (s : State) (n : Nat) : State :=
  match s.win with
  | .none => s
  | .opened rem =>
    if n ≤ rem then s.setWin (.opened (rem - n))
    else (s.raiseHaz hazOverrun).setWin .unknown
  | .unknown => if n > 0 then s.raiseHaz hazUnknownPos else s

end Sys2Proof.Machine
end

