-- ==== Sys2Proof/Syntax.lean ====
section
/-! DEFINITION. The operations of the block: one constructor per row of spec/opcode_table.json
(30_encoding.md R95), its operands the fields of the row's format (R91, R92). The operand latches of
10_state.md R31 exist only during one operation: they are these arguments (log 8). -/

namespace Sys2Proof

/-- One host operation. LEN of the FS format is the payload's length, so it is not a field of its own. -/
inductive Instr where
  /-- CVT565, 0x01, format FC: convert one colour (R121). -/
  | cvt565 (r g b : Byte)
  /-- SENDC, 0x10, format FS: send command bytes (R146). -/
  | sendc (chunk : U16) (payload : List Byte)
  /-- SENDD, 0x11, format FS: send data bytes (R147). -/
  | sendd (chunk : U16) (payload : List Byte)
  /-- RESET, 0x20, format F0: pulse the panel's reset line (R151). -/
  | resetOp
  /-- INIT, 0x21, format F0: run the initialization sequence (R164). -/
  | initOp
  /-- BEGIN, 0x22, format F0: reset and initialise the panel (R181). -/
  | beginOp
  /-- SETWIN, 0x30, format FW: set the addressing window and start a RAM write (R167). -/
  | setwin (x0 y0 x1 y1 : U16)
  /-- SETWINF, 0x31, format F0: the full-panel window (R168). -/
  | setwinf
  /-- CLEAR, 0x40, format FC: fill the frame buffer (R182). -/
  | clear (r g b : Byte)
  /-- FBWR, 0x41, format FP: write one pixel of the frame buffer (R183). -/
  | fbwr (x y : U16) (r g b : Byte)
  /-- FBRD, 0x42, format FA: read one pixel of the frame buffer (R184). -/
  | fbrd (x y : U16)
  /-- DISPLAY, 0x50, format F0: send the whole frame buffer (R185). -/
  | display
  /-- DISPIMG, 0x51, format FI: send a caller-supplied image (R186). -/
  | dispimg (w h : U16) (pixels : List Byte)
  /-- QUERY, 0x60, format FX: read a configuration or status item (R187). -/
  | query (idx : Byte)
  deriving DecidableEq, Repr

end Sys2Proof
end

