-- ==== Sys2Proof/WellFormed.lean ====
section
/-! DEFINITION. Which terms of `Instr` an operation stream can spell (30_encoding.md R91, R94): every
field value is allowed (R98); a payload is as long as the operation's own length field says. -/

namespace Sys2Proof

/-- The payload of an FS operation fits its u16 LEN; the payload of an FI operation has exactly `3·W·H`
bytes (R91, R94). Every other operation is well formed. -/
def Instr.wellFormed : Instr → Bool
  | .cvt565 _ _ _ => true
  | .sendc _ payload => payload.length < 65536
  | .sendd _ payload => payload.length < 65536
  | .resetOp => true
  | .initOp => true
  | .beginOp => true
  | .setwin _ _ _ _ => true
  | .setwinf => true
  | .clear _ _ _ => true
  | .fbwr _ _ _ _ _ => true
  | .fbrd _ _ => true
  | .display => true
  | .dispimg w h pixels => pixels.length = 3 * w.toNat * h.toNat
  | .query _ => true

end Sys2Proof
end

