-- ==== Sys2Proof/Decode.lean ====
section
/-! DEFINITION. The host operation encoding (30_encoding.md R90 to R100): the opcode map, the formats,
field assembly, the decoder on any bytes, the encoder, and the host's view of an opcode-table word. -/

namespace Sys2Proof

/-- The 14 opcodes of 30_encoding.md R95, by mnemonic. -/
inductive Opcode where
  | cvt565 | sendc | sendd | resetOp | initOp | beginOp | setwin | setwinf
  | clear | fbwr | fbrd | display | dispimg | query
  deriving DecidableEq, Repr

/-- The operation formats of 30_encoding.md R91. -/
inductive Format where
  | f0 | fc | fs | fw | fp | fa | fi | fx
  deriving DecidableEq, Repr

/-- What the bytes at the stream position spell. -/
inductive Decoded where
  /-- One whole operation, and the bytes after it. -/
  | op (i : Instr) (rest : List Byte)
  /-- The first byte is an opcode of no row of R95 (R97). -/
  | illegal (opcode : Byte)
  /-- The stream ends inside the operation, or before its opcode (R100). -/
  | truncated
  deriving DecidableEq, Repr

/-- The opcode column of R95. -/
def Opcode.byte : Opcode → Byte
  | .cvt565 => 0x01
  | .sendc => 0x10
  | .sendd => 0x11
  | .resetOp => 0x20
  | .initOp => 0x21
  | .beginOp => 0x22
  | .setwin => 0x30
  | .setwinf => 0x31
  | .clear => 0x40
  | .fbwr => 0x41
  | .fbrd => 0x42
  | .display => 0x50
  | .dispimg => 0x51
  | .query => 0x60

/-- The format column of R95. -/
def Opcode.format : Opcode → Format
  | .cvt565 => .fc
  | .sendc => .fs
  | .sendd => .fs
  | .resetOp => .f0
  | .initOp => .f0
  | .beginOp => .f0
  | .setwin => .fw
  | .setwinf => .f0
  | .clear => .fc
  | .fbwr => .fp
  | .fbrd => .fa
  | .display => .f0
  | .dispimg => .fi
  | .query => .fx

/-- The rows of the opcode map (R95), in its order. -/
def opcodes : List Opcode :=
  [.cvt565, .sendc, .sendd, .resetOp, .initOp, .beginOp, .setwin, .setwinf,
   .clear, .fbwr, .fbrd, .display, .dispimg, .query]

/-- The decoder matches all 8 bits of byte 0 (R95); `none` for the illegal values of R97. -/
def Opcode.ofByte (b : Byte) : Option Opcode :=
  opcodes.find? fun o => o.byte == b

/-- A u16 field at two stream bytes, big-endian (R92; 20_memory.md R67). -/
def be16 (hi lo : Byte) : U16 := hi ++ lo

/-- The two stream bytes of a u16 field, high byte first (R92). -/
def u16Bytes (v : U16) : List Byte := [v.extractLsb' 8 8, v.extractLsb' 0 8]

/-- The length in bytes of an operation (R99). -/
def Instr.length : Instr → Nat
  | .cvt565 _ _ _ => 4
  | .sendc _ payload => 5 + payload.length
  | .sendd _ payload => 5 + payload.length
  | .resetOp => 1
  | .initOp => 1
  | .beginOp => 1
  | .setwin _ _ _ _ => 9
  | .setwinf => 1
  | .clear _ _ _ => 4
  | .fbwr _ _ _ _ _ => 8
  | .fbrd _ _ => 5
  | .display => 1
  | .dispimg w h _ => 5 + 3 * w.toNat * h.toNat
  | .query _ => 2

/-- The payload of a format FS or FI: the next `n` bytes, once all are there (R91, R100). -/
def takePayload (n : Nat) (rest : List Byte) (mk : List Byte → Instr) : Decoded :=
  if rest.length < n then .truncated else .op (mk (rest.take n)) (rest.drop n)

/-- Format FC (R91): R, G, B. -/
def decodeFC (mk : Byte → Byte → Byte → Instr) : List Byte → Decoded
  | r :: g :: b :: rest => .op (mk r g b) rest
  | _ => .truncated

/-- Format FS (R91): CHUNK, LEN, then LEN payload bytes. -/
def decodeFS (mk : U16 → List Byte → Instr) : List Byte → Decoded
  | c1 :: c0 :: l1 :: l0 :: rest => takePayload (be16 l1 l0).toNat rest (mk (be16 c1 c0))
  | _ => .truncated

/-- Format FW (R91): X0, Y0, X1, Y1. -/
def decodeFW (mk : U16 → U16 → U16 → U16 → Instr) : List Byte → Decoded
  | a1 :: a0 :: b1 :: b0 :: c1 :: c0 :: d1 :: d0 :: rest =>
    .op (mk (be16 a1 a0) (be16 b1 b0) (be16 c1 c0) (be16 d1 d0)) rest
  | _ => .truncated

/-- Format FP (R91): X, Y, R, G, B. -/
def decodeFP (mk : U16 → U16 → Byte → Byte → Byte → Instr) : List Byte → Decoded
  | x1 :: x0 :: y1 :: y0 :: r :: g :: b :: rest =>
    .op (mk (be16 x1 x0) (be16 y1 y0) r g b) rest
  | _ => .truncated

/-- Format FA (R91): X, Y. -/
def decodeFA (mk : U16 → U16 → Instr) : List Byte → Decoded
  | x1 :: x0 :: y1 :: y0 :: rest => .op (mk (be16 x1 x0) (be16 y1 y0)) rest
  | _ => .truncated

/-- Format FI (R91, R94): W, H, then `3·W·H` pixel bytes, whatever the configured panel size. -/
def decodeFI (mk : U16 → U16 → List Byte → Instr) : List Byte → Decoded
  | w1 :: w0 :: h1 :: h0 :: rest =>
    takePayload (3 * (be16 w1 w0).toNat * (be16 h1 h0).toNat) rest
      (mk (be16 w1 w0) (be16 h1 h0))
  | _ => .truncated

/-- Format FX (R91): IDX. -/
def decodeFX (mk : Byte → Instr) : List Byte → Decoded
  | idx :: rest => .op (mk idx) rest
  | _ => .truncated

/-- The bytes after an opcode, read in the opcode's format (R91). -/
def decodeOperands : Opcode → List Byte → Decoded
  | .cvt565, rest => decodeFC .cvt565 rest
  | .sendc, rest => decodeFS .sendc rest
  | .sendd, rest => decodeFS .sendd rest
  | .resetOp, rest => .op .resetOp rest
  | .initOp, rest => .op .initOp rest
  | .beginOp, rest => .op .beginOp rest
  | .setwin, rest => decodeFW .setwin rest
  | .setwinf, rest => .op .setwinf rest
  | .clear, rest => decodeFC .clear rest
  | .fbwr, rest => decodeFP .fbwr rest
  | .fbrd, rest => decodeFA .fbrd rest
  | .display, rest => .op .display rest
  | .dispimg, rest => decodeFI .dispimg rest
  | .query, rest => decodeFX .query rest

/-- The decoder, total on any bytes (R90, R97, R100). -/
def decode : List Byte → Decoded
  | [] => .truncated
  | b :: rest =>
    match Opcode.ofByte b with
    | none => .illegal b
    | some o => decodeOperands o rest

/-- The opcode of an operation (R95). -/
def Instr.opcode : Instr → Opcode
  | .cvt565 _ _ _ => .cvt565
  | .sendc _ _ => .sendc
  | .sendd _ _ => .sendd
  | .resetOp => .resetOp
  | .initOp => .initOp
  | .beginOp => .beginOp
  | .setwin _ _ _ _ => .setwin
  | .setwinf => .setwinf
  | .clear _ _ _ => .clear
  | .fbwr _ _ _ _ _ => .fbwr
  | .fbrd _ _ => .fbrd
  | .display => .display
  | .dispimg _ _ _ => .dispimg
  | .query _ => .query

/-- The operand bytes of an operation in its format's layout (R91). -/
def operandBytes : Instr → List Byte
  | .cvt565 r g b => [r, g, b]
  | .sendc chunk p => u16Bytes chunk ++ u16Bytes (BitVec.ofNat 16 p.length) ++ p
  | .sendd chunk p => u16Bytes chunk ++ u16Bytes (BitVec.ofNat 16 p.length) ++ p
  | .resetOp => []
  | .initOp => []
  | .beginOp => []
  | .setwin x0 y0 x1 y1 => u16Bytes x0 ++ u16Bytes y0 ++ u16Bytes x1 ++ u16Bytes y1
  | .setwinf => []
  | .clear r g b => [r, g, b]
  | .fbwr x y r g b => u16Bytes x ++ u16Bytes y ++ [r, g, b]
  | .fbrd x y => u16Bytes x ++ u16Bytes y
  | .display => []
  | .dispimg w h pixels => u16Bytes w ++ u16Bytes h ++ pixels
  | .query idx => [idx]

/-- The bytes of a well-formed operation (R91, R95). -/
def encode (i : Instr) : List Byte := i.opcode.byte :: operandBytes i

/-- `l` made at least `n` bytes long with zero bytes at its end. -/
def padTo (n : Nat) (l : List Byte) : List Byte := l ++ List.replicate (n - l.length) 0

/-- Byte `k` of a number of at least `8·(k+1)` bits, byte 0 the least significant. -/
def byteOfNat (w k : Nat) : Byte := BitVec.ofNat 8 (w >>> (8 * k))

/-- The length of an operation from its first bytes (R99), 1 where there is no opcode of R95. Reads at
most the opcode and four bytes after it. -/
def lengthOfBytes : List Byte → Nat
  | [] => 1
  | b :: rest =>
    match (Opcode.ofByte b).map Opcode.format with
    | none => 1
    | some .f0 => 1
    | some .fc => 4
    | some .fw => 9
    | some .fp => 8
    | some .fa => 5
    | some .fx => 2
    | some .fs =>
      match rest with
      | _ :: _ :: l1 :: l0 :: _ => 5 + (be16 l1 l0).toNat
      | _ => 5
    | some .fi =>
      match rest with
      | w1 :: w0 :: h1 :: h0 :: _ => 5 + 3 * (be16 w1 w0).toNat * (be16 h1 h0).toNat
      | _ => 5

/-- The stream bytes of an opcode-table word of `nbits` bits: its bytes from the least significant up,
then zero bytes up to the length of the operation they spell. -/
def tableBytes (nbits w : Nat) : List Byte :=
  let given := (List.range ((nbits + 7) / 8)).map (byteOfNat w)
  padTo (lengthOfBytes (padTo 9 given)) given

/-- The operation the decoder reads from an opcode-table word, every bit above `nbits` zero. -/
def decodeTableWord (nbits w : Nat) : Option Instr :=
  match decode (tableBytes nbits w) with
  | .op i _ => some i
  | .illegal _ => none
  | .truncated => none

end Sys2Proof
end

