-- ==== Sys2Proof/Machine/Memory.lean ====
section
/-! DEFINITION. The frame buffer's storage (20_memory.md R60 to R75): the bytes written since
construction as a list of cells with strictly rising addresses. An address not listed has "no value"
here; `State.fbByte` then gives `FB_INIT` (log 4). -/

namespace Sys2Proof.Machine

/-- The byte last written at an address, `none` where nothing has been written since construction. -/
def Mem.lookup : List Host.Cell → Nat → Option Byte
  | [], _ => none
  | (k, v) :: m, a => if k < a then Mem.lookup m a else if k = a then some v else none

/-- Write one byte. -/
def Mem.write : List Host.Cell → Nat → Byte → List Host.Cell
  | [], a, b => [(a, b)]
  | (k, v) :: m, a, b =>
    if k < a then (k, v) :: Mem.write m a b
    else if k = a then (a, b) :: m
    else (a, b) :: (k, v) :: m

/-- `MemWrite` (00_scope.md R14): write the bytes at consecutive addresses, the first at `a`. -/
def Mem.writes (m : List Host.Cell) (a : Nat) : List Byte → List Host.Cell
  | [] => m
  | b :: bs => Mem.writes (Mem.write m a b) (a + 1) bs

/-- Write every address below `n`, address `a` with `f a`. -/
def Mem.fill (m : List Host.Cell) (n : Nat) (f : Nat → Byte) : List Host.Cell :=
  (List.range n).map (fun a => (a, f a)) ++ m.dropWhile fun c => c.1 < n

/-- The canonical form: addresses strictly rising. No entry can equal what an unlisted address reads as
at this level, which is "no value". -/
abbrev Mem.wf (m : List Host.Cell) : Prop := (m.map Prod.fst).Pairwise (· < ·)

/-- `fbAddr(x, y, c)` on a panel `width` pixels wide (20_memory.md R63). -/
def fbAddr (width x y c : Nat) : Nat := 3 * (y * width + x) + c

/-- The byte the frame buffer holds at an address (10_state.md R46): the one last written, else
`FB_INIT`. -/
def State.fbByte (s : State) (a : Nat) : Byte := (Mem.lookup s.fb a).getD (Config.fbInit a)

/-- `n` consecutive bytes of a frame buffer from address `a` up, in one ascending walk
(20_memory.md R63): at each address the byte last written, else `FB_INIT`. -/
def Mem.run : List Host.Cell → Nat → Nat → List Byte
  | _, _, 0 => []
  | m, a, n + 1 =>
    (Mem.lookup (m.dropWhile fun c => c.1 < a) a).getD (Config.fbInit a) ::
      Mem.run (m.dropWhile fun c => c.1 < a) (a + 1) n

/-- `MemRead(a, n)` (00_scope.md R14). -/
def State.fbRead (s : State) (a n : Nat) : List Byte := Mem.run s.fb a n

/-- `MemWrite(a, len, bs)` (00_scope.md R14). -/
def State.fbWrite (s : State) (a : Nat) (bs : List Byte) : State :=
  { s with fb := Mem.writes s.fb a bs }

/-- The byte CLEAR stores at an address: the channel `a mod 3` of its colour (20_memory.md R63, R68). -/
def channelAt (r g b : Byte) (a : Nat) : Byte :=
  if a % 3 = 0 then r else if a % 3 = 1 then g else b

/-- Write the colour to every pixel (43_facade.md R182), in one pass over the addresses. -/
def State.fbClear (s : State) (r g b : Byte) : State :=
  { s with fb := Mem.fill s.fb s.cfg.fbSize (channelAt r g b) }

end Sys2Proof.Machine
end

