-- ==== Sys2Proof/Machine/Operands.lean ====
section
/-! DEFINITION. Values computed from operands and state alone: the chunk size (30_encoding.md R93), wire
byte order (20_memory.md R66), chunking (41_bus_framer.md R142), the RGB565 conversion and the frame
encoder (40_pixel_codec.md), the window check (42_register_protocol.md R166), the QUERY items
(10_state.md R45) and the status codes (60_exceptions.md R210). -/

namespace Sys2Proof.Machine

/-- `chunkOf(CHUNK)` (30_encoding.md R93): 0 selects `CHUNK_DEFAULT`. -/
def chunkOf (chunk : U16) : Nat := if chunk = 0 then chunkDefault else chunk.toNat

/-- `hi8(v) = (v >> 8) & 0xFF` (00_scope.md R13). -/
def hi8 (v : Nat) : Byte := BitVec.ofNat 8 ((v >>> 8) &&& 0xFF)

/-- `lo8(v) = v & 0xFF` (00_scope.md R13). -/
def lo8 (v : Nat) : Byte := BitVec.ofNat 8 (v &&& 0xFF)

/-- The least natural `q` with `q·b ≥ a` (00_scope.md R13), for `b ≥ 1`. -/
def ceilDiv (a b : Nat) : Nat := (a + b - 1) / b

/-- `chunks` with at most `fuel` chunks. -/
def chunksUpTo : Nat → Nat → List Byte → List (List Byte)
  | 0, _, _ => []
  | _ + 1, _, [] => []
  | fuel + 1, c, b :: bs =>
    (b :: bs).take c :: chunksUpTo fuel c ((b :: bs).drop c)

/-- The consecutive chunks of at most `c` bytes of a send (41_bus_framer.md R142), for `c ≥ 1`. -/
def chunks (c : Nat) (bs : List Byte) : List (List Byte) := chunksUpTo bs.length c bs

/-- The converter's pixel function (40_pixel_codec.md R120):
`((r & 0xF8) << 8) | ((g & 0xFC) << 3) | (b >> 3)`. -/
def rgb565 (r g b : Byte) : U16 :=
  ((r &&& 0xF8).setWidth 16 <<< 8) ||| ((g &&& 0xFC).setWidth 16 <<< 3) |||
    (b.setWidth 16 >>> 3)

/-- The two wire bytes of a sample, high byte first (20_memory.md R66, 30_encoding.md R105). -/
def sampleBytes (p : U16) : List Byte := [hi8 p.toNat, lo8 p.toNat]

/-- `encode` (40_pixel_codec.md R122) of a row-major RGB888 byte sequence: the WireFrame. -/
def encodeFrame : List Byte → List Byte
  | r :: g :: b :: rest => sampleBytes (rgb565 r g b) ++ encodeFrame rest
  | _ => []

/-- `encode` by a converter that takes `lanes` pixels a step (40_pixel_codec.md R124); the last step
takes what is left. -/
def encodeLanes (lanes : Nat) (img : List Byte) : List Byte :=
  ((chunks (3 * lanes) img).map encodeFrame).flatten

/-- `validWin` (42_register_protocol.md R166): `x0 <= x1 <= WIDTH - 1` and `y0 <= y1 <= HEIGHT - 1`, the
subtraction being that of the integers. -/
def validWin (p : Params) (x0 y0 x1 y1 : Nat) : Bool :=
  decide (x0 ≤ x1 ∧ x1 < p.width ∧ y0 ≤ y1 ∧ y1 < p.height)

/-- A pixel coordinate is on the panel (20_memory.md R71). -/
def onPanel (p : Params) (x y : Nat) : Bool := decide (x < p.width ∧ y < p.height)

/-- The bytes of a window of `w × h` pixels: two per pixel (42_register_protocol.md R169). -/
def windowBytes (x0 y0 x1 y1 : Nat) : Nat := 2 * (x1 - x0 + 1) * (y1 - y0 + 1)

/-- The RESULT of FBRD (43_facade.md R184): `{r, g, b}` in bits 23..0. -/
def packRgb : List Byte → U64
  | [r, g, b] => (r ++ g ++ b).setWidth 64
  | _ => 0

/-- The code column of 60_exceptions.md R210. -/
def Status.code : Status → Byte
  | .ok => 0x00
  | .configError => 0x01
  | .geometryError => 0x02
  | .transportError => 0x03
  | .illegalOp => 0x04

/-- The code column of 10_state.md R37. -/
def Lifecycle.code : Lifecycle → Nat
  | .constructed => 0
  | .reset => 1
  | .initialized => 2
  | .ready => 3

/-- WINSTATE (10_state.md R45). -/
def Window.code : Window → Nat
  | .none => 0
  | .opened _ => 1
  | .unknown => 2

/-- WINREM (10_state.md R45): `rem` when OPEN, else 0. -/
def Window.rem : Window → Nat
  | .none => 0
  | .opened rem => rem
  | .unknown => 0

/-- A line level as QUERY gives it: 0, 1, or 2 for X (10_state.md R45). -/
def levelCode : Option Level → Nat
  | some .low => 0
  | some .high => 1
  | none => 2

/-- The QUERY items of 10_state.md R45; `none` for an IDX not listed. -/
def queryItem (s : State) (idx : Byte) : Option Nat :=
  match idx.toNat with
  | 0x00 => some s.cfg.width
  | 0x01 => some s.cfg.height
  | 0x02 => some (if s.cfg.hasRst then 1 else 0)
  | 0x03 => some chunkDefault
  | 0x04 => some s.lc.code
  | 0x05 => some s.win.code
  | 0x06 => some s.win.rem
  | 0x07 => some s.haz.toNat
  | 0x08 => some (levelCode s.dc)
  | 0x09 => some (levelCode s.rst)
  | 0x0A => some spiMode
  | _ => none

end Sys2Proof.Machine
end

