-- ==== Sys2Proof/Machine/Ops.lean ====
section
/-! DEFINITION. The named operations the meanings are made of: emitting events, the bus agent's answer,
the send primitive (41_bus_framer.md R140), the reset pulse (R150), the init sequencer
(42_register_protocol.md R163), the window sequence (R165), raising an error and completing an operation
(60_exceptions.md R217), and fetching from the host's stream (30_encoding.md R90). -/

namespace Sys2Proof.Machine

/-- How an operation's pseudocode stands after some of its steps: it goes on, or an error has ended it,
with the effects made before it (00_scope.md R14). -/
inductive Flow where
  | go (s : State)
  | stop (e : Status) (s : State)
  deriving DecidableEq, Repr

/-- The next step of the pseudocode, done only where no error has ended the operation. -/
def Flow.bind : Flow → (State → Flow) → Flow
  | .go s, k => k s
  | .stop e s, _ => .stop e s

/-- The state reached. -/
def Flow.state : Flow → State
  | .go s => s
  | .stop _ s => s

/-- The response (10_state.md R32): `value` on OK; on an error its code and RESULT 0
(60_exceptions.md R217). -/
def Flow.response (value : U64) : Flow → Response
  | .go _ => ⟨.ok, value⟩
  | .stop e _ => ⟨e, 0⟩

/-- `raise E` (00_scope.md R14): end the operation with status `e`. No state is saved and no handler is
entered (60_exceptions.md R217). -/
def raise (e : Status) (s : State) : Flow := .stop e s

/-- Raise `e` unless the check holds. -/
def require (check : Bool) (e : Status) (s : State) : Flow := if check then .go s else raise e s

/-- The first line of every operation: `if S.dead: raise CONFIG_ERROR()` (10_state.md R43). -/
def start (s : State) : Flow := if s.dead then raise .configError s else .go s

/-- Complete an operation of `len` bytes, whatever its status: advance `S.opPos` (10_state.md R33) and
return the response (R32). -/
def finish (len : Nat) (value : U64) (f : Flow) : State :=
  { f.state with
    opPos := f.state.opPos + len
    responses := f.state.responses ++ [f.response value] }

/-- `Emit(ev)` (00_scope.md R14). -/
def State.emit (s : State) (e : Event) : State := { s with trace := s.trace ++ [e] }

/-- The bus agent's answer to the `k`-th `Xfer` from now: the one the environment has fixed, else a
free value (00_scope.md R14, log 5). -/
def State.answer (s : State) (k : Nat) : Ack := s.answers.getD k (Config.busAck (s.xfers + k))

/-- One answer has been given. -/
def State.takeAnswer (s : State) : State :=
  { s with answers := s.answers.drop 1, xfers := s.xfers + 1 }

/-- Write the D/C line: high for data, low for a command (41_bus_framer.md R140, R141). -/
def State.driveDc (s : State) (isData : Bool) : State :=
  { s with dc := some (if isData then .high else .low) }.emit
    (.dc (if isData then .high else .low))

/-- The window tracking of a send (41_bus_framer.md R140). -/
def State.track (s : State) (isData : Bool) (n : Nat) : State :=
  if isData then s.trackData n else s.trackCmd

/-- One pass of `Send`'s loop (41_bus_framer.md R140, R144): emit the transaction, take the bus agent's
answer. -/
def transact (bs : List Byte) (s : State) : Flow :=
  match s.answer 0 with
  | .ok => .go (s.emit (.xfer bs)).takeAnswer
  | .err => raise .transportError ((s.emit (.xfer bs)).takeAnswer.setWin .unknown)

/-- `Send`'s loop over its chunks. -/
def sendChunks : List (List Byte) → State → Flow
  | [], s => .go s
  | c :: cs, s => (transact c s).bind (sendChunks cs)

/-- `Send(bs, isData, chunk)` (41_bus_framer.md R140): the framer's only path to the bus. -/
def send (bs : List Byte) (isData : Bool) (chunk : Nat) (s : State) : Flow :=
  sendChunks (chunks chunk bs) ((s.driveDc isData).track isData bs.length)

/-- Write the reset line (41_bus_framer.md R150) and wait. -/
def State.driveRst (s : State) (l : Level) (ms : Nat) : State :=
  ({ s with rst := some l }.emit (.rst l)).emit (.wait ms)

/-- `ResetPulse()` (41_bus_framer.md R150): high, low, high, each with its delay; the window write ends
without a hazard. Nothing at all without a reset line. -/
def State.resetPulse (s : State) : State :=
  if s.cfg.hasRst then
    (((s.driveRst .high pulseHighMs).driveRst .low pulseLowMs).driveRst .high
      pulseSettleMs).setWin .none
  else s

/-- Write the lifecycle state (10_state.md R37). -/
def State.setLc (s : State) (l : Lifecycle) : State := { s with lc := l }

/-- Write the sequencer's step index (10_state.md R34). -/
def State.setSeqIdx (s : State) (n : Nat) : State := { s with seqIdx := n }

/-- `IssueEntry(e)` (42_register_protocol.md R163): no data send for an empty list. -/
def issueEntry (e : InitRecord) (s : State) : Flow :=
  match e with
  | .cmd c d =>
    (send [c] false chunkDefault s).bind fun s =>
      if d = [] then .go s else send d true chunkDefault s
  | .wait ms => .go (s.emit (.wait ms))

/-- The sequencer's loop (42_register_protocol.md R164): the step index grows by one after each entry
(10_state.md R34). -/
def issueAll : List InitRecord → State → Flow
  | [], s => .go s
  | e :: es, s =>
    (issueEntry e s).bind fun s => issueAll es (s.setSeqIdx (s.seqIdx + 1))

/-- The initialization sequence, common to INIT (42_register_protocol.md R164) and BEGIN
(43_facade.md R181): the table from its first entry, then INITIALIZED, then READY. -/
def initSequence (s : State) : Flow :=
  (issueAll (initTable s.cfg) (s.setSeqIdx 0)).bind fun s =>
    .go ((s.setLc .initialized).setLc .ready)

/-- `WindowSeq(x0, y0, x1, y1)` (42_register_protocol.md R165, 30_encoding.md R104): five sends, then
the window is open (R169). -/
def windowSeq (x0 y0 x1 y1 : Nat) (s : State) : Flow :=
  (send [s.cfg.cmdCaset] false chunkDefault s).bind fun s =>
  (send [hi8 x0, lo8 x0, hi8 x1, lo8 x1] true chunkDefault s).bind fun s =>
  (send [s.cfg.cmdPaset] false chunkDefault s).bind fun s =>
  (send [hi8 y0, lo8 y0, hi8 y1, lo8 y1] true chunkDefault s).bind fun s =>
  (send [s.cfg.cmdRamwr] false chunkDefault s).bind fun s =>
  .go (s.setWin (.opened (windowBytes x0 y0 x1 y1)))

/-- The window sequence of the full panel, `(0, 0, WIDTH - 1, HEIGHT - 1)` (42_register_protocol.md
R168). -/
def fullWindowSeq (s : State) : Flow := windowSeq 0 0 (s.cfg.width - 1) (s.cfg.height - 1) s

/-- The pixel send of DISPLAY and DISPIMG (43_facade.md R185, R186): the encoded image as one data send
of chunk size 64 (30_encoding.md R105). -/
def sendImage (img : List Byte) (s : State) : Flow :=
  send (encodeLanes s.cfg.lanes.val img) true chunkDefault s

/-- The image DISPLAY sends: all of the frame buffer, row-major (43_facade.md R185). -/
def State.fbImage (s : State) : List Byte := s.fbRead 0 s.cfg.fbSize

/-- What the bytes at `S.opPos` of the host's stream spell (30_encoding.md R90). -/
def fetch (s : State) : Decoded := decode (s.stream.drop s.opPos)

/-- An illegal opcode (30_encoding.md R97): consume that one byte, return ILLEGAL_OP, or CONFIG_ERROR
while dead (60_exceptions.md R216). -/
def illegalOpcode (s : State) : State :=
  finish 1 0 ((start s).bind (raise .illegalOp))

/-- The host's move: it writes more bytes to the operation stream (30_encoding.md R90,
70_reset_and_hazards.md R255). -/
def State.supply (s : State) (bs : List Byte) : State := { s with stream := s.stream ++ bs }

/-- Construction (70_reset_and_hazards.md R240, R241): the state of 10_state.md R50, or a dead block
where a check of 60_exceptions.md R211 fails (log 21). -/
def construct (p : Params) (pl : Platform) : State :=
  { State.constructed p with
    busOpen := p.constructs pl
    dead := !p.constructs pl }

end Sys2Proof.Machine
end

