-- ==== Sys2Proof/Machine/Codec.lean ====
section
/-! DEFINITION. The converter's operation: CVT565 (40_pixel_codec.md R121). -/

namespace Sys2Proof.Machine

/-- CVT565 (40_pixel_codec.md R121). -/
def execCvt565 (r g b : Byte) (s : State) : Host.Outcome State Fault Refusal :=
  .next (finish (Instr.cvt565 r g b).length ((rgb565 r g b).setWidth 64) (start s))

end Sys2Proof.Machine
end

