-- ==== Sys2Proof/Machine/Facade.lean ====
section
/-! DEFINITION. The operations of the lifecycle, the frame buffer, the full-frame transfer and the
status read: BEGIN, CLEAR, FBWR, FBRD, DISPLAY, DISPIMG, QUERY (43_facade.md R181 to R187). -/

namespace Sys2Proof.Machine

/-- BEGIN (43_facade.md R181). -/
def execBegin (s : State) : Host.Outcome State Fault Refusal :=
  .next (finish Instr.beginOp.length 0
    ((start s).bind fun s => initSequence (s.resetPulse.setLc .reset)))

/-- CLEAR (43_facade.md R182): the colour is stored as RGB888, unquantized. -/
def execClear (r g b : Byte) (s : State) : Host.Outcome State Fault Refusal :=
  .next (finish (Instr.clear r g b).length 0
    ((start s).bind fun s => .go (s.fbClear r g b)))

/-- FBWR (43_facade.md R183). -/
def execFbwr (x y : U16) (r g b : Byte) (s : State) : Host.Outcome State Fault Refusal :=
  .next (finish (Instr.fbwr x y r g b).length 0
    ((start s).bind fun s =>
      (require (onPanel s.cfg x.toNat y.toNat) .geometryError s).bind fun s =>
        .go (s.fbWrite (fbAddr s.cfg.width x.toNat y.toNat 0) [r, g, b])))

/-- FBRD (43_facade.md R184). -/
def execFbrd (x y : U16) (s : State) : Host.Outcome State Fault Refusal :=
  .next (finish (Instr.fbrd x y).length
    (packRgb (s.fbRead (fbAddr s.cfg.width x.toNat y.toNat 0) 3))
    ((start s).bind (require (onPanel s.cfg x.toNat y.toNat) .geometryError)))

/-- DISPLAY (43_facade.md R185; 90_conflicts.md C3): the full-panel window, then the frame buffer. -/
def execDisplay (s : State) : Host.Outcome State Fault Refusal :=
  .next (finish Instr.display.length 0
    ((start s).bind fun s =>
      (fullWindowSeq s).bind fun s => sendImage s.fbImage s))

/-- DISPIMG (43_facade.md R186): the size is checked before any event; the payload is consumed either
way. -/
def execDispimg (w h : U16) (pixels : List Byte) (s : State) :
    Host.Outcome State Fault Refusal :=
  .next (finish (Instr.dispimg w h pixels).length 0
    ((start s).bind fun s =>
      (require (decide (w.toNat = s.cfg.width ∧ h.toNat = s.cfg.height)) .geometryError
        s).bind fun s =>
      (fullWindowSeq s).bind (sendImage pixels)))

/-- QUERY (43_facade.md R187). -/
def execQuery (idx : Byte) (s : State) : Host.Outcome State Fault Refusal :=
  .next (finish (Instr.query idx).length
    (BitVec.ofNat 64 ((queryItem s idx).getD 0))
    ((start s).bind (require (queryItem s idx).isSome .illegalOp)))

end Sys2Proof.Machine
end

