-- ==== Sys2Proof/Machine/Framer.lean ====
section
/-! DEFINITION. The framer's operations: SENDC, SENDD, RESET (41_bus_framer.md R146, R147, R151). -/

namespace Sys2Proof.Machine

/-- SENDC (41_bus_framer.md R146). -/
def execSendc (chunk : U16) (payload : List Byte) (s : State) :
    Host.Outcome State Fault Refusal :=
  .next (finish (Instr.sendc chunk payload).length 0
    ((start s).bind (send payload false (chunkOf chunk))))

/-- SENDD (41_bus_framer.md R147). -/
def execSendd (chunk : U16) (payload : List Byte) (s : State) :
    Host.Outcome State Fault Refusal :=
  .next (finish (Instr.sendd chunk payload).length 0
    ((start s).bind (send payload true (chunkOf chunk))))

/-- RESET (41_bus_framer.md R151): `S.lc` becomes RESET with or without a reset line. -/
def execReset (s : State) : Host.Outcome State Fault Refusal :=
  .next (finish Instr.resetOp.length 0
    ((start s).bind fun s => .go (s.resetPulse.setLc .reset)))

end Sys2Proof.Machine
end

