-- ==== Sys2Proof/Machine/Sequencer.lean ====
section
/-! DEFINITION. The register protocol's operations: INIT, SETWIN, SETWINF
(42_register_protocol.md R164, R167, R168). -/

namespace Sys2Proof.Machine

/-- INIT (42_register_protocol.md R164). -/
def execInit (s : State) : Host.Outcome State Fault Refusal :=
  .next (finish Instr.initOp.length 0 ((start s).bind initSequence))

/-- SETWIN (42_register_protocol.md R167): the window is checked before any event. -/
def execSetwin (x0 y0 x1 y1 : U16) (s : State) : Host.Outcome State Fault Refusal :=
  .next (finish (Instr.setwin x0 y0 x1 y1).length 0
    ((start s).bind fun s =>
      (require (validWin s.cfg x0.toNat y0.toNat x1.toNat y1.toNat) .geometryError s).bind
        (windowSeq x0.toNat y0.toNat x1.toNat y1.toNat)))

/-- SETWINF (42_register_protocol.md R168). -/
def execSetwinf (s : State) : Host.Outcome State Fault Refusal :=
  .next (finish Instr.setwinf.length 0 ((start s).bind fullWindowSeq))

end Sys2Proof.Machine
end

