-- ==== Sys2Proof/Machine/Dispatch.lean ====
section
/-! DEFINITION. One arm per operation of the opcode map (30_encoding.md R95), each one call of its
meaning. -/

namespace Sys2Proof.Machine

/-- Execute one operation to completion (00_scope.md R7). -/
def exec (i : Instr) (s : State) : Host.Outcome State Fault Refusal :=
  match i with
  | .cvt565 r g b => Sys2Proof.Machine.execCvt565 r g b s
  | .sendc chunk payload => Sys2Proof.Machine.execSendc chunk payload s
  | .sendd chunk payload => Sys2Proof.Machine.execSendd chunk payload s
  | .resetOp => Sys2Proof.Machine.execReset s
  | .initOp => Sys2Proof.Machine.execInit s
  | .beginOp => Sys2Proof.Machine.execBegin s
  | .setwin x0 y0 x1 y1 => Sys2Proof.Machine.execSetwin x0 y0 x1 y1 s
  | .setwinf => Sys2Proof.Machine.execSetwinf s
  | .clear r g b => Sys2Proof.Machine.execClear r g b s
  | .fbwr x y r g b => Sys2Proof.Machine.execFbwr x y r g b s
  | .fbrd x y => Sys2Proof.Machine.execFbrd x y s
  | .display => Sys2Proof.Machine.execDisplay s
  | .dispimg w h pixels => Sys2Proof.Machine.execDispimg w h pixels s
  | .query idx => Sys2Proof.Machine.execQuery idx s

end Sys2Proof.Machine
end

