-- ==== Sys2Proof/Machine/Step.lean ====
section
/-! DEFINITION. One step of the block: the next operation of the host's stream, executed to completion
(00_scope.md R7, 20_memory.md R77). -/

namespace Sys2Proof.Machine

/-- Execute the operation at `S.opPos` (30_encoding.md R90); an illegal opcode consumes one byte (R97);
where the stream ends inside an operation, or holds none, the block waits and nothing changes (R100,
log 7). -/
def step (s : State) : Host.Outcome State Fault Refusal :=
  match fetch s with
  | .op i _ => exec i s
  | .illegal _ => .next (illegalOpcode s)
  | .truncated => .next s

/-- `s` with the operation of an opcode-table word at `S.opPos`, and nothing after it. It stands for the
host supplying that operation (log 10). -/
def State.withFetchWord (s : State) (nbits w : Nat) : State :=
  { s with stream := padTo s.opPos (s.stream.take s.opPos) ++ tableBytes nbits w }

end Sys2Proof.Machine
end

