-- ==== Sys2Proof/Machine/Wire.lean ====
section
/-! DEFINITION. What the wire trace means outside the block: the stream the panel receives
(00_scope.md R9), the levels last written (10_state.md R38, R39), and the SPI pins during one transaction
(30_encoding.md R107). The block never reads any of it (20_memory.md R62). -/

namespace Sys2Proof.Machine

/-- One item of what the panel receives (00_scope.md R9). -/
inductive PanelItem where
  /-- A byte, with the D/C level of the most recent `Dc` event. -/
  | byte (dc : Option Level) (b : Byte)
  | rst (l : Level)
  | wait (ms : Nat)
  deriving DecidableEq, Repr

/-- The stream the panel receives from a trace, the D/C level before it being `dc`
(00_scope.md R9). -/
def panelItems (dc : Option Level) : List Event → List PanelItem
  | [] => []
  | .dc l :: es => panelItems (some l) es
  | .rst l :: es => .rst l :: panelItems dc es
  | .xfer bs :: es => bs.map (.byte dc) ++ panelItems dc es
  | .wait ms :: es => .wait ms :: panelItems dc es

/-- Panel-equivalence of two wire traces (00_scope.md R9). -/
def panelEquivalent (t u : List Event) : Prop := panelItems none t = panelItems none u

/-- The level of the last `Dc` event, `d` where there is none. -/
def lastDc (d : Option Level) : List Event → Option Level
  | [] => d
  | .dc l :: es => lastDc (some l) es
  | .rst _ :: es => lastDc d es
  | .xfer _ :: es => lastDc d es
  | .wait _ :: es => lastDc d es

/-- The level of the last `Rst` event, `d` where there is none. -/
def lastRst (d : Option Level) : List Event → Option Level
  | [] => d
  | .dc _ :: es => lastRst d es
  | .rst l :: es => lastRst (some l) es
  | .xfer _ :: es => lastRst d es
  | .wait _ :: es => lastRst d es

/-- How many bus transactions a trace holds. -/
def xferCount : List Event → Nat
  | [] => 0
  | .dc _ :: es => xferCount es
  | .rst _ :: es => xferCount es
  | .xfer _ :: es => xferCount es + 1
  | .wait _ :: es => xferCount es

/-- The pins of the SPI bus master at one moment: chip select asserted, the clock level, MOSI where it
carries a bit. -/
structure SpiPins where
  selected : Bool
  sck      : Bool
  mosi     : Option Bool
  deriving DecidableEq, Repr

/-- Between transactions: chip select released, the clock idle low (30_encoding.md R107, mode 0). -/
def spiIdle : SpiPins := ⟨false, false, none⟩

/-- The bits of a byte, most significant first (30_encoding.md R107; PRESUMED, log 14). -/
def byteBits (b : Byte) : List Bool := (List.range 8).map fun i => b.getLsbD (7 - i)

/-- One bit in mode 0: MOSI set while the clock is low, then one clock pulse. -/
def bitWave (b : Bool) : List SpiPins :=
  [⟨true, false, some b⟩, ⟨true, true, some b⟩, ⟨true, false, some b⟩]

/-- The pins during one `Xfer` (30_encoding.md R107): chip select asserted for the whole transaction and
released after it (PRESUMED, log 14). -/
def spiWave (bs : List Byte) : List SpiPins :=
  spiIdle :: (bs.flatMap byteBits).flatMap bitWave ++ [spiIdle]

/-- What a mode-0 receiver samples: MOSI at each leading edge of the clock while selected. -/
def sampleLeading : List SpiPins → List (Option Bool)
  | p :: q :: rest =>
    (if q.selected && !p.sck && q.sck then [q.mosi] else []) ++ sampleLeading (q :: rest)
  | _ => []

end Sys2Proof.Machine
end

