-- ==== Sys2Proof/Safety.lean ====
section
/-! DEFINITION. The terms claims are stated in: the named premises of 70_reset_and_hazards.md R256, the
end of a run (R244), the event lists the rules give, and the invariant every step keeps. -/

namespace Sys2Proof.Machine

/-! ## Premises (70_reset_and_hazards.md R256) -/

/-- `ConfigValid`: construction succeeded. -/
def ConfigValid (s : State) : Prop := s.dead = false

/-- `InitBodyIs(B)`. -/
def InitBodyIs (body : List InitCmd) (s : State) : Prop := s.cfg.initBody = body

/-- `CmdCodesAre(c)`, the five codes in the order of 30_encoding.md R106. -/
def CmdCodesAre (caset paset ramwr slpout dispon : Byte) (s : State) : Prop :=
  s.cfg.cmdCaset = caset ∧ s.cfg.cmdPaset = paset ∧ s.cfg.cmdRamwr = ramwr ∧
    s.cfg.cmdSlpout = slpout ∧ s.cfg.cmdDispon = dispon

/-- `NoHazard`, read at the end of the run (also R251). -/
def NoHazard (s : State) : Prop := s.haz = 0

/-- `NoTransportError`: no response of the run is TRANSPORT_ERROR. -/
def NoTransportError (s : State) : Prop := ∀ r ∈ s.responses, r.status ≠ .transportError

/-- `FbWritten(P)`, of the state in which the DISPLAY that the claim reads starts: every byte of every
pixel of `P` has been written since construction. -/
def FbWritten (pixels : List (Nat × Nat)) (s : State) : Prop :=
  ∀ p ∈ pixels, ∀ c < 3, (Mem.lookup s.fb (fbAddr s.cfg.width p.1 p.2 c)).isSome = true

/-- The operations completed in `n` steps, each with its response, oldest first. -/
def history : Nat → State → List (Instr × Response)
  | 0, _ => []
  | n + 1, s =>
    match fetch s, step s with
    | .op i _, .next t => (t.responses.getLast?.map fun r => (i, r)).toList ++ history n t
    | .illegal _, .next t => history n t
    | .truncated, .next t => history n t
    | _, _ => []

/-- INIT and BEGIN. -/
def initialises : Instr → Bool
  | .initOp => true
  | .beginOp => true
  | _ => false

/-- DISPLAY and DISPIMG. -/
def showsFrame : Instr → Bool
  | .display => true
  | .dispimg _ _ _ => true
  | _ => false

/-- `Initialised`, of a run's operations and the positions in it of those the claim reads (log 27): an
INIT or BEGIN that returned OK stands before every DISPLAY or DISPIMG at such a position, so before the
first of them. An operation the claim does not read asks nothing. -/
def Initialised (claimReads : List Nat) (ops : List (Instr × Response)) : Prop :=
  ∃ j < ops.length,
    (ops[j]?.any fun e => initialises e.1 && e.2.status == .ok) = true ∧
    ∀ k ∈ claimReads, (ops[k]?.any fun e => showsFrame e.1) = true → j < k

/-- A run has ended (R244): no operation is left in the stream and none is part-decoded. -/
def RunEnded (s : State) : Prop := s.stream.length ≤ s.opPos

/-- A stuck run (30_encoding.md R100): the stream ends inside an operation. -/
def StuckInside (s : State) : Prop := s.opPos < s.stream.length ∧ fetch s = .truncated

/-! ## The bus agent's answers -/

/-- The bus agent answers ok to the next `n` transactions. -/
def BusOk (s : State) (n : Nat) : Prop := ∀ k < n, s.answer k = .ok

/-- The bus agent answers ok to the next `k` transactions and err to the one after them. -/
def BusErrAt (s : State) (k : Nat) : Prop := BusOk s k ∧ s.answer k = .err

/-- `s` after the events `evs` have been emitted and the bus agent has answered their transactions, one
answer each. Nothing else changes. -/
def State.performs (s : State) (evs : List Event) : State :=
  { s with
    trace := s.trace ++ evs
    answers := s.answers.drop (xferCount evs)
    xfers := s.xfers + xferCount evs }

/-- `s` after an operation of `len` bytes that had no effect but its response (10_state.md R32, R33). -/
def State.responds (s : State) (len : Nat) (status : Status) (result : U64) : State :=
  { s with opPos := s.opPos + len, responses := s.responses ++ [⟨status, result⟩] }

/-- The events up to and including the `n`-th transaction. -/
def throughXfer : Nat → List Event → List Event
  | 0, _ => []
  | _ + 1, [] => []
  | n + 1, .xfer bs :: es => .xfer bs :: throughXfer n es
  | n + 1, .dc l :: es => .dc l :: throughXfer (n + 1) es
  | n + 1, .rst l :: es => .rst l :: throughXfer (n + 1) es
  | n + 1, .wait ms :: es => .wait ms :: throughXfer (n + 1) es

/-- The operation `i`, whose events are `evs`, meets the error at transaction `k` (41_bus_framer.md R144,
60_exceptions.md R213, R218): the events through that transaction stand, `S.win` is UNKNOWN, the response
is TRANSPORT_ERROR with RESULT 0, the hazard register is `haz` and the lifecycle `lc`. Nothing else
changes but the lines, as the events left them, and the step index of an INIT or BEGIN. -/
def FailsAt (i : Instr) (s : State) (evs : List Event) (k : Nat) (haz : BitVec 3) (lc : Lifecycle) :
    Prop :=
  ∃ seq, (i ≠ .initOp → i ≠ .beginOp → seq = s.seqIdx) ∧ exec i s = .next
    (State.responds
      { s.performs (throughXfer (k + 1) evs) with
        dc := lastDc s.dc (throughXfer (k + 1) evs)
        rst := lastRst s.rst (throughXfer (k + 1) evs)
        win := .unknown
        haz := haz
        lc := lc
        seqIdx := seq }
      i.length .transportError 0)

/-! ## The event lists of the rules -/

/-- The D/C level of a send (30_encoding.md R103). -/
def dcLevel (isData : Bool) : Level := if isData then .high else .low

/-- The events of a send that meets no error (41_bus_framer.md R141, R142). -/
def sendEvents (bs : List Byte) (isData : Bool) (chunk : Nat) : List Event :=
  .dc (dcLevel isData) :: (chunks chunk bs).map .xfer

/-- The events of one init record (42_register_protocol.md R163). -/
def recordEvents : InitRecord → List Event
  | .cmd c d => [.dc .low, .xfer [c]] ++ (if d = [] then [] else sendEvents d true 64)
  | .wait ms => [.wait ms]

/-- The events of the whole init table (R164). -/
def initEvents (p : Params) : List Event := (initTable p).flatMap recordEvents

/-- The six events of the reset pulse (41_bus_framer.md R150), none without a reset line. -/
def pulseEvents (p : Params) : List Event :=
  if p.hasRst then
    [.rst .high, .wait 5, .rst .low, .wait 20, .rst .high, .wait 150]
  else []

/-- The ten events of a window sequence (30_encoding.md R104). -/
def windowEvents (p : Params) (x0 y0 x1 y1 : Nat) : List Event :=
  [.dc .low, .xfer [p.cmdCaset], .dc .high, .xfer [hi8 x0, lo8 x0, hi8 x1, lo8 x1],
   .dc .low, .xfer [p.cmdPaset], .dc .high, .xfer [hi8 y0, lo8 y0, hi8 y1, lo8 y1],
   .dc .low, .xfer [p.cmdRamwr]]

/-! ## What a send does to the window tracker and the hazard bits -/

/-- The hazard register after a command (41_bus_framer.md R148). -/
def hazAfterCmd : Window → BitVec 3 → BitVec 3
  | .opened (_ + 1), h => h ||| 0b001
  | .opened 0, h => h
  | .none, h => h
  | .unknown, h => h

/-- The window tracker after `n` data bytes (41_bus_framer.md R149). -/
def winAfterData (n : Nat) : Window → Window
  | .none => .none
  | .opened rem => if n ≤ rem then .opened (rem - n) else .unknown
  | .unknown => .unknown

/-- The hazard register after `n` data bytes (41_bus_framer.md R149). -/
def hazAfterData (n : Nat) : Window → BitVec 3 → BitVec 3
  | .none, h => h
  | .opened rem, h => if n ≤ rem then h else h ||| 0b010
  | .unknown, h => if 0 < n then h ||| 0b100 else h

/-! ## The frame encoder as 40_pixel_codec.md R122 writes it -/

/-- Pixel `(x, y)` of a row-major RGB888 byte sequence `w` pixels wide (30_encoding.md R92). -/
def pixelOf (img : List Byte) (w x y : Nat) : Byte × Byte × Byte :=
  (img.getD (3 * (y * w + x)) 0, img.getD (3 * (y * w + x) + 1) 0,
   img.getD (3 * (y * w + x) + 2) 0)

/-- `encode(img, W, H)`: y outer, x inner, high byte then low byte (R122). -/
def encodeImage (img : Nat → Nat → Byte × Byte × Byte) (w h : Nat) : List Byte :=
  (List.range h).flatMap fun y => (List.range w).flatMap fun x =>
    let p := (rgb565 (img x y).1 (img x y).2.1 (img x y).2.2).toNat
    [hi8 p, lo8 p]

/-- The test decoder of 40_pixel_codec.md R127, no part of the block. -/
def decode565 (p : U16) : Byte × Byte × Byte :=
  (((p >>> 8) &&& 0xF8).setWidth 8, ((p >>> 3) &&& 0xFC).setWidth 8,
   ((p <<< 3) &&& 0xF8).setWidth 8)

/-! ## CLEAR as 43_facade.md R182 writes it -/

/-- CLEAR's loop (R182): `MemWrite(fbAddr(x, y, 0), 3, [R, G, B])` for every y, and in it every x. -/
def clearLoop (p : Params) (r g b : Byte) (m : List Host.Cell) : List Host.Cell :=
  (List.range p.height).foldl (fun m y =>
    (List.range p.width).foldl (fun m x => Mem.writes m (fbAddr p.width x y 0) [r, g, b]) m) m

/-! ## The invariant -/

/-- What holds after every construction and is kept by every step. -/
structure State.Inv (s : State) : Prop where
  /-- A live block has a valid panel size (60_exceptions.md R211). -/
  size : s.dead = false → s.cfg.sizeOk = true
  /-- The bus session is open exactly while the block is not dead (10_state.md R40, R43). -/
  bus : s.busOpen = !s.dead
  /-- The frame buffer's storage is in canonical form. -/
  fbForm : Mem.wf s.fb
  /-- Only frame-buffer addresses are stored (20_memory.md R61). -/
  fbRange : ∀ c ∈ s.fb, c.1 < s.cfg.fbSize
  /-- Without a reset line `S.rst` is X (10_state.md R39). -/
  rstAbsent : s.cfg.hasRst = false → s.rst = none
  /-- INITIALIZED lasts only inside an operation (10_state.md R37). -/
  lcSettled : s.lc ≠ .initialized
  /-- The range of `rem` (10_state.md R41). -/
  winRange : ∀ rem, s.win = .opened rem → rem ≤ 2 * 65535 * 65535
  /-- `S.dc` is the level last written (10_state.md R38). -/
  dcLast : s.dc = lastDc none s.trace
  /-- `S.rst` is the level last written (10_state.md R39). -/
  rstLast : s.rst = lastRst none s.trace
  /-- Every transaction carries between 1 and 65535 bytes (00_scope.md R8, 30_encoding.md R93). -/
  xferSize : ∀ bs, Event.xfer bs ∈ s.trace → 1 ≤ bs.length ∧ bs.length ≤ 65535
  /-- The stream position never passes the bytes supplied (30_encoding.md R100). -/
  position : s.opPos ≤ s.stream.length
  /-- The range of the step index (10_state.md R34). -/
  seqRange : s.seqIdx ≤ (initTable s.cfg).length
  /-- The bus agent has answered every transaction (00_scope.md R7). -/
  answered : s.xfers = xferCount s.trace
  /-- RESULT is 0 on an error (10_state.md R32). -/
  errorResult : ∀ r ∈ s.responses, r.status ≠ .ok → r.result = 0
  /-- A dead block has emitted nothing (60_exceptions.md R211). -/
  deadQuiet : s.dead = true → s.trace = []

end Sys2Proof.Machine
end

