-- ==== Sys2Proof/Certificates/Slice0/Obligations.lean ====
section
/-! DEFINITION. The statements about the block, each with the rule of spec/ it formalises. -/

open Sys2Proof Sys2Proof.Machine

/-! ## The host encoding (30_encoding.md) -/

/-- Decoding the bytes of a well-formed operation gives it back, with the bytes after it, at every value
of every field (R90, R91, R92, R95). -/
def Obligations.DecodeOfEncode : Prop :=
  ∀ (i : Instr) (rest : List Byte), i.wellFormed = true →
    decode (encode i ++ rest) = .op i rest

/-- Every operation the decoder reads is well formed, and its bytes are the encoder's: each byte
sequence has one meaning (R91, R92, R95). -/
def Obligations.EncodeOfDecode : Prop :=
  ∀ (bs : List Byte) (i : Instr) (rest : List Byte), decode bs = .op i rest →
    i.wellFormed = true ∧ encode i ++ rest = bs

/-- One word for each row of the opcode map (R95), written out byte by byte from its opcode and the layout
of its format (R91): each decodes to the row's operation, the bytes after it left over. -/
def Obligations.SampleWordsDecode : Prop :=
  decode [0x01, 0xAB, 0xCD, 0xEF] = .op (.cvt565 0xAB 0xCD 0xEF) [] ∧
  decode [0x10, 0x00, 0x00, 0x00, 0x01, 0x2C] = .op (.sendc 0 [0x2C]) [] ∧
  decode [0x11, 0x00, 0x01, 0x00, 0x02, 0xF8, 0x00] = .op (.sendd 1 [0xF8, 0x00]) [] ∧
  decode [0x20] = .op .resetOp [] ∧
  decode [0x21] = .op .initOp [] ∧
  decode [0x22] = .op .beginOp [] ∧
  decode [0x30, 0x00, 0x0A, 0x00, 0x14, 0x00, 0x32, 0x01, 0x2C] = .op (.setwin 10 20 50 300) [] ∧
  decode [0x31] = .op .setwinf [] ∧
  decode [0x40, 0x10, 0x20, 0x30] = .op (.clear 0x10 0x20 0x30) [] ∧
  decode [0x41, 0x00, 0x01, 0x01, 0x00, 0xFF, 0x00, 0x07] = .op (.fbwr 1 256 255 0 7) [] ∧
  decode [0x42, 0x00, 0xEF, 0x01, 0x3F] = .op (.fbrd 239 319) [] ∧
  decode [0x50] = .op .display [] ∧
  decode [0x51, 0x00, 0x01, 0x00, 0x01, 0x01, 0x02, 0x03, 0x50] =
    .op (.dispimg 1 1 [1, 2, 3]) [0x50] ∧
  decode [0x60, 0x0A] = .op (.query 0x0A) []

/-- The 242 opcodes of no row of R95, and the unlisted QUERY indices, are illegal (R97): the byte (or
the two bytes) are consumed, nothing else changes, the response is ILLEGAL_OP (CONFIG_ERROR while dead),
and the next byte is decoded as an opcode. -/
def Obligations.IllegalEncodingsConsumeOneByte : Prop :=
  let legal : List Byte :=
    [0x01, 0x10, 0x11, 0x20, 0x21, 0x22, 0x30, 0x31, 0x40, 0x41, 0x42, 0x50, 0x51, 0x60]
  ((List.range 256).filter fun n => !legal.contains (BitVec.ofNat 8 n)).length = 242 ∧
  (∀ (s : State) (b : Byte) (rest : List Byte), b ∉ legal → s.stream.drop s.opPos = b :: rest →
    step s = .next (s.responds 1 (if s.dead then .configError else .illegalOp) 0) ∧
    fetch (s.responds 1 (if s.dead then .configError else .illegalOp) 0) = decode rest) ∧
  ∀ (s : State) (idx : Byte), 0x0A < idx →
    exec (.query idx) s = .next (s.responds 2 (if s.dead then .configError else .illegalOp) 0)

/-- A step runs the operation whose bytes stand at `S.opPos` (R90), and adds nothing to it: the advance
of `S.opPos` is the operation's own (10_state.md R33). -/
def Obligations.StepRunsDecodedOperation : Prop :=
  ∀ (s : State) (i : Instr) (rest : List Byte),
    decode (s.stream.drop s.opPos) = .op i rest → step s = exec i s

/-- `S.opPos` is 0 at construction and advances by the operation's length, whatever the status; an
illegal opcode advances it by 1 (10_state.md R33). -/
def Obligations.PositionAdvancesByLength : Prop :=
  (∀ (i : Instr) (s : State), ∃ t, exec i s = .next t ∧ t.opPos = s.opPos + i.length) ∧
  (∀ (s : State) (b : Byte), fetch s = .illegal b →
    ∃ t, step s = .next t ∧ t.opPos = s.opPos + 1) ∧
  ∀ (p : Params) (pl : Platform), (construct p pl).opPos = 0

/-- A truncated operation (R100): with fewer bytes than its length at `S.opPos` the block waits and
nothing changes; once the host supplies the remaining bytes it executes. -/
def Obligations.TruncatedOperationWaits : Prop :=
  ∀ (s : State) (i : Instr) (missing : List Byte), i.wellFormed = true →
    s.opPos ≤ s.stream.length → missing ≠ [] →
    s.stream.drop s.opPos ++ missing = encode i →
    step s = .next s ∧ step (s.supply missing) = exec i (s.supply missing)

/-! ## Construction, the dead block, the responses -/

/-- Construction (10_state.md R50): with a valid configuration the state is the table of R50, and no event
is emitted; with any other the block is dead and the bus session closed. The step index is unspecified
there, so nothing is said of it. -/
def Obligations.ConstructionLeavesTable : Prop :=
  ∀ (p : Params) (pl : Platform),
    let valid := 1 ≤ p.width ∧ p.width ≤ 65535 ∧ 1 ≤ p.height ∧ p.height ≤ 65535 ∧
      pl.dcLineValid = true ∧ (p.hasRst = true → pl.rstLineValid = true) ∧ pl.busOpens = true
    (valid → (construct p pl).opPos = 0 ∧ (construct p pl).lc = .constructed ∧
      (construct p pl).dc = none ∧ (construct p pl).rst = none ∧
      (construct p pl).busOpen = true ∧ (construct p pl).win = .none ∧
      (construct p pl).haz = 0b000 ∧ (construct p pl).dead = false ∧
      (∀ a, (construct p pl).fbByte a = Config.fbInit a) ∧
      (construct p pl).cfg = p ∧ (construct p pl).trace = []) ∧
    (¬ valid → (construct p pl).dead = true ∧ (construct p pl).busOpen = false)

/-- Construction fails (60_exceptions.md R211, 70_reset_and_hazards.md R241) in each case of R211: the block
is dead with no bus session and no event, and answers an operation with CONFIG_ERROR, all its bytes
consumed. -/
def Obligations.FailedConstructionIsDead : Prop :=
  ∀ (p : Params) (pl : Platform),
    (p.width < 1 ∨ 65535 < p.width ∨ p.height < 1 ∨ 65535 < p.height ∨ pl.dcLineValid = false ∨
      (p.hasRst = true ∧ pl.rstLineValid = false) ∨ pl.busOpens = false) →
    (construct p pl).dead = true ∧ (construct p pl).busOpen = false ∧ (construct p pl).trace = [] ∧
    ∀ (i : Instr) (bs : List Byte), exec i ((construct p pl).supply bs) =
      .next (((construct p pl).supply bs).responds i.length .configError 0)

/-- The reset state is a valid construction with the parameters `Params.standard`. The model's choice:
log 1 (HAS_RST, INIT_BODY), log 2 (OPEN parameters), log 3 (command codes), log 6 (step index). -/
def Obligations.ResetIsConstruction : Prop :=
  State.reset = construct Params.standard ⟨true, true, true⟩ ∧
  State.reset.cfg.width = 240 ∧ State.reset.cfg.height = 320 ∧
  (∀ a, State.reset.fbByte a = Config.fbInit a) ∧ State.reset.trace = [] ∧
  State.reset.responses = []

/-- While `S.dead`, every operation does nothing and returns CONFIG_ERROR, and so does an illegal
opcode; `S.dead` never changes (10_state.md R43). -/
def Obligations.DeadBlockDoesNothing : Prop :=
  (∀ (i : Instr) (s : State), s.dead = true →
    exec i s = .next (s.responds i.length .configError 0)) ∧
  (∀ (s : State) (b : Byte), s.dead = true → fetch s = .illegal b →
    step s = .next (s.responds 1 .configError 0)) ∧
  ∀ s t : State, step s = .next t → t.dead = s.dead

/-- Every operation returns exactly one response; on an error its RESULT is 0; an operation that returns
no value (any but CVT565, FBRD, QUERY) returns 0 (10_state.md R32). -/
def Obligations.OneResponsePerOperation : Prop :=
  ∀ (i : Instr) (s : State), ∃ t r, exec i s = .next t ∧ t.responses = s.responses ++ [r] ∧
    (r.status ≠ .ok → r.result = 0) ∧
    ((∀ x y z, i ≠ .cvt565 x y z) → (∀ x y, i ≠ .fbrd x y) → (∀ x, i ≠ .query x) → r.result = 0)

/-- CONFIG_ERROR, ILLEGAL_OP and GEOMETRY_ERROR are precise: the operation has no effect but `S.opPos`
and its response (60_exceptions.md R218, R216). -/
def Obligations.PreciseErrorsHaveNoEffect : Prop :=
  ∀ (i : Instr) (s t : State) (e : Status) (v : U64), exec i s = .next t →
    t.responses = s.responses ++ [⟨e, v⟩] →
    e = .configError ∨ e = .illegalOp ∨ e = .geometryError →
    t = s.responds i.length e 0

/-- GEOMETRY_ERROR is raised exactly in the cases of 60_exceptions.md R212. -/
def Obligations.GeometryErrorCases : Prop :=
  ∀ (i : Instr) (s : State), s.dead = false →
    (exec i s = .next (s.responds i.length .geometryError 0) ↔
      ((∃ x0 y0 x1 y1, i = .setwin x0 y0 x1 y1 ∧
        ¬ (x0.toNat ≤ x1.toNat ∧ (x1.toNat : Int) ≤ (s.cfg.width : Int) - 1 ∧
          y0.toNat ≤ y1.toNat ∧ (y1.toNat : Int) ≤ (s.cfg.height : Int) - 1)) ∨
      (∃ x y r g b, i = .fbwr x y r g b ∧
        (s.cfg.width ≤ x.toNat ∨ s.cfg.height ≤ y.toNat)) ∨
      (∃ x y, i = .fbrd x y ∧ (s.cfg.width ≤ x.toNat ∨ s.cfg.height ≤ y.toNat)) ∨
      (∃ w h px, i = .dispimg w h px ∧
        (w.toNat ≠ s.cfg.width ∨ h.toNat ≠ s.cfg.height))))

/-- The STATUS codes, and which operations can return which error (60_exceptions.md R210, R215):
TRANSPORT_ERROR only the eight that send bytes, ILLEGAL_OP of the operations only QUERY; no operation of a
live block returns CONFIG_ERROR. -/
def Obligations.StatusesOfOperations : Prop :=
  (Status.ok.code = 0x00 ∧ Status.configError.code = 0x01 ∧ Status.geometryError.code = 0x02 ∧
    Status.transportError.code = 0x03 ∧ Status.illegalOp.code = 0x04) ∧
  ∀ (i : Instr) (s t : State) (e : Status) (v : U64), s.dead = false → exec i s = .next t →
    t.responses = s.responses ++ [⟨e, v⟩] →
    e ≠ .configError ∧
    (e = .illegalOp → ∃ idx, i = .query idx) ∧
    (e = .transportError →
      (∃ c p, i = .sendc c p) ∨ (∃ c p, i = .sendd c p) ∨ i = .initOp ∨ i = .beginOp ∨
      (∃ a b c d, i = .setwin a b c d) ∨ i = .setwinf ∨ i = .display ∨
      ∃ w h px, i = .dispimg w h px)

/-! ## The converter (40_pixel_codec.md) -/

/-- The pixel function (R120): the formula on naturals, and the bit fields it gives. -/
def Obligations.PixelFunction : Prop :=
  ∀ r g b : Byte,
    (rgb565 r g b).toNat =
      (((r.toNat &&& 0xF8) <<< 8) ||| ((g.toNat &&& 0xFC) <<< 3) ||| (b.toNat >>> 3)) ∧
    (∀ k < 5, (rgb565 r g b).getLsbD (11 + k) = r.getLsbD (3 + k)) ∧
    (∀ k < 6, (rgb565 r g b).getLsbD (5 + k) = g.getLsbD (2 + k)) ∧
    ∀ k < 5, (rgb565 r g b).getLsbD k = b.getLsbD (3 + k)

/-- The three terms occupy disjoint ranges, so the `|` is their sum and nothing overflows (R125). -/
def Obligations.PixelTermsDisjoint : Prop :=
  ∀ r g b : Byte,
    let red := (r.toNat &&& 0xF8) <<< 8
    let green := (g.toNat &&& 0xFC) <<< 3
    let blue := b.toNat >>> 3
    0x800 ∣ red ∧ red ≤ 0xF800 ∧ 0x20 ∣ green ∧ green ≤ 0x7E0 ∧ blue ≤ 0x1F ∧
    (rgb565 r g b).toNat = red + green + blue ∧ (rgb565 r g b).toNat ≤ 0xFFFF

/-- Exactly 256 inputs map to each of the 65536 output values (R126). -/
def Obligations.PixelFunctionFibres : Prop :=
  ∀ p : U16,
    (Finset.univ.filter fun t : Byte × Byte × Byte => rgb565 t.1 t.2.1 t.2.2 = p).card = 256

/-- The round trip of R127: through the test decoder, and through any decoder that restores the kept
bits, whatever it puts in the low ones. -/
def Obligations.DecodedSampleReencodes : Prop :=
  (∀ p : U16, rgb565 (decode565 p).1 (decode565 p).2.1 (decode565 p).2.2 = p) ∧
  (∀ r g b : Byte, rgb565 (decode565 (rgb565 r g b)).1 (decode565 (rgb565 r g b)).2.1
    (decode565 (rgb565 r g b)).2.2 = rgb565 r g b) ∧
  ∀ (p : U16) (r g b : Byte),
    (∀ k < 5, r.getLsbD (3 + k) = p.getLsbD (11 + k)) →
    (∀ k < 6, g.getLsbD (2 + k) = p.getLsbD (5 + k)) →
    (∀ k < 5, b.getLsbD (3 + k) = p.getLsbD k) → rgb565 r g b = p

/-- CVT565 (R121): RESULT is the value of the formula, nothing else is written; CONFIG_ERROR when dead. -/
def Obligations.Cvt565Converts : Prop :=
  ∀ (r g b : Byte) (s : State),
    (s.dead = false → exec (.cvt565 r g b) s = .next (s.responds 4 .ok (BitVec.ofNat 64
      (((r.toNat &&& 0xF8) <<< 8) ||| ((g.toNat &&& 0xFC) <<< 3) ||| (b.toNat >>> 3))))) ∧
    (s.dead = true → exec (.cvt565 r g b) s = .next (s.responds 4 .configError 0))

/-- The frame encoder is the double loop of R122 on the row-major bytes of any image, and gives
`2·W·H` bytes, the two of pixel `y·W + x` at twice that place (R123). -/
def Obligations.FrameEncoderIsDoubleLoop : Prop :=
  ∀ (img : Nat → Nat → Byte × Byte × Byte) (w h : Nat),
    let bytes := (List.range h).flatMap fun y => (List.range w).flatMap fun x =>
      [(img x y).1, (img x y).2.1, (img x y).2.2]
    encodeFrame bytes = encodeImage img w h ∧
    (encodeFrame bytes).length = 2 * w * h ∧
    ∀ x < w, ∀ y < h,
      let p := (rgb565 (img x y).1 (img x y).2.1 (img x y).2.2).toNat
      (encodeFrame bytes)[2 * (y * w + x)]? = some (hi8 p) ∧
      (encodeFrame bytes)[2 * (y * w + x) + 1]? = some (lo8 p)

/-- LANES is not observable (R124): for every LANES the output is the scalar encoder's, and no wire event,
result or state of any operation depends on it. -/
def Obligations.LanesNotObservable : Prop :=
  (∀ (lanes : Nat) (img : List Byte), 1 ≤ lanes → encodeLanes lanes img = encodeFrame img) ∧
  ∀ (i : Instr) (s : State) (lanes : { n : Nat // 0 < n }),
    let other (t : State) : State := { t with cfg := { t.cfg with lanes := lanes } }
    ∃ t, exec i s = .next t ∧ exec i (other s) = .next (other t)

/-! ## The framer (41_bus_framer.md) -/

/-- A send of `N` bytes with chunk size `c` (R142): its events are one `Dc` and `ceil(N/c)` `Xfer`s,
chunk `k` carrying bytes `k·c` up; every chunk but the last has `c` bytes and the last what is left,
between 1 and `c`; together they are the bytes in order. -/
def Obligations.SendChunks : Prop :=
  ∀ (bs : List Byte) (isData : Bool) (c : Nat) (s : State), 1 ≤ c →
    let n := (chunks c bs).length
    (BusOk s n → (send bs isData c s).state.trace =
      s.trace ++ .dc (if isData then .high else .low) :: (chunks c bs).map .xfer) ∧
    bs.length ≤ n * c ∧ (∀ q, bs.length ≤ q * c → n ≤ q) ∧
    (chunks c bs).flatten = bs ∧
    (∀ k < n, (chunks c bs)[k]? = some ((bs.drop (k * c)).take c)) ∧
    (∀ k, k + 1 < n → ((bs.drop (k * c)).take c).length = c) ∧
    (0 < n → ((bs.drop ((n - 1) * c)).take c).length = bs.length - (n - 1) * c ∧
      1 ≤ bs.length - (n - 1) * c ∧ bs.length - (n - 1) * c ≤ c)

/-- SENDC (R146): the D/C line goes low once, the payload is sent in chunks, the window is closed with
UNDERRUN where bytes were due; on the first err the operation stops (R144). -/
def Obligations.SendcSendsCommandBytes : Prop :=
  ∀ (chunk : U16) (p : List Byte) (s : State),
    let c := if chunk = 0 then 64 else chunk.toNat
    let evs := sendEvents p false c
    (s.dead = true → exec (.sendc chunk p) s = .next (s.responds (5 + p.length) .configError 0)) ∧
    (s.dead = false → BusOk s (xferCount evs) → exec (.sendc chunk p) s = .next
      (State.responds { s.performs evs with
          dc := some .low
          win := .none
          haz := hazAfterCmd s.win s.haz }
        (5 + p.length) .ok 0)) ∧
    ∀ k < xferCount evs, s.dead = false → BusErrAt s k →
      FailsAt (.sendc chunk p) s evs k (hazAfterCmd s.win s.haz) s.lc

/-- SENDD (R147): the D/C line goes high once, the payload is sent in chunks whatever the window, and
the window and the hazards are tracked as R149 says; on the first err the operation stops (R144). -/
def Obligations.SenddSendsDataBytes : Prop :=
  ∀ (chunk : U16) (p : List Byte) (s : State),
    let c := if chunk = 0 then 64 else chunk.toNat
    let evs := sendEvents p true c
    (s.dead = true → exec (.sendd chunk p) s = .next (s.responds (5 + p.length) .configError 0)) ∧
    (s.dead = false → BusOk s (xferCount evs) → exec (.sendd chunk p) s = .next
      (State.responds { s.performs evs with
          dc := some .high
          win := winAfterData p.length s.win
          haz := hazAfterData p.length s.win s.haz }
        (5 + p.length) .ok 0)) ∧
    ∀ k < xferCount evs, s.dead = false → BusErrAt s k →
      FailsAt (.sendd chunk p) s evs k (hazAfterData p.length s.win s.haz) s.lc

/-- A send of zero bytes (R145) emits its `Dc` and no `Xfer`, whatever the bus would answer; a command
send closes the window, a data send changes no tracking. -/
def Obligations.EmptySendUsesNoBus : Prop :=
  ∀ (chunk : U16) (s : State), s.dead = false →
    exec (.sendc chunk []) s = .next (State.responds { s with
        trace := s.trace ++ [.dc .low]
        dc := some .low
        win := .none
        haz := hazAfterCmd s.win s.haz }
      5 .ok 0) ∧
    exec (.sendd chunk []) s = .next (State.responds { s with
        trace := s.trace ++ [.dc .high]
        dc := some .high }
      5 .ok 0)

/-- RESET (R151, R150, R152): with a reset line the three writes and their delays, and the window closed
without a hazard; without one no event; `S.lc` becomes RESET either way. -/
def Obligations.ResetPulsesLine : Prop :=
  ∀ s : State,
    (s.dead = true → exec .resetOp s = .next (s.responds 1 .configError 0)) ∧
    (s.dead = false → s.cfg.hasRst = true → exec .resetOp s = .next
      (State.responds { s with
          trace := s.trace ++
            [.rst .high, .wait 5, .rst .low, .wait 20, .rst .high, .wait 150]
          rst := some .high
          win := .none
          lc := .reset }
        1 .ok 0)) ∧
    (s.dead = false → s.cfg.hasRst = false → exec .resetOp s = .next
      (State.responds { s with lc := .reset } 1 .ok 0))

/-- How the bytes of a send are grouped into transactions does not show in what the panel receives
(00_scope.md R9): the panel gets each byte once, in order, with the send's D/C level. -/
def Obligations.ChunkingIsPanelEquivalent : Prop :=
  ∀ (t u : List Event) (bs : List Byte) (isData : Bool) (c c' : Nat), 1 ≤ c → 1 ≤ c' →
    panelEquivalent (t ++ sendEvents bs isData c ++ u) (t ++ sendEvents bs isData c' ++ u) ∧
    ∀ d, panelItems d (sendEvents bs isData c) =
      bs.map (.byte (some (if isData then .high else .low)))

/-- On the SPI pins (30_encoding.md R107; bit order and chip select are general knowledge, log 14): a
mode-0 receiver samples exactly the bits of the bytes in order, eight for each, most significant first,
and chip select is released before and after. -/
def Obligations.SpiCarriesBytes : Prop :=
  ∀ bs : List Byte,
    sampleLeading (spiWave bs) = (bs.flatMap byteBits).map some ∧
    (bs.flatMap byteBits).length = 8 * bs.length ∧
    (∀ b : Byte, ∀ k < 8, (byteBits b)[k]? = some (b.getLsbD (7 - k))) ∧
    (spiWave bs).head? = some spiIdle ∧ (spiWave bs).getLast? = some spiIdle ∧
    ∀ p ∈ (spiWave bs).tail.dropLast, p.selected = true

/-! ## The sequencer and the window (42_register_protocol.md) -/

/-- INIT (R164): the records of the body in order, then Sleep-Out, 120 ms, Display-On; READY; on an err
the rest is not issued and `S.lc` keeps its value. The model's own in it: the step index keeps its last
value once INIT has returned (log 6, DESIGN CHOICE), and Sleep-Out and Display-On carry no data bytes
(log 16, PRESUMED). -/
def Obligations.InitIssuesTable : Prop :=
  ∀ s : State,
    let evs : List Event :=
      (s.cfg.initBody.flatMap fun e =>
        [.dc .low, .xfer [e.cmd]] ++ if e.data = [] then [] else sendEvents e.data true 64) ++
      [.dc .low, .xfer [s.cfg.cmdSlpout], .wait 120, .dc .low, .xfer [s.cfg.cmdDispon]]
    (s.dead = true → exec .initOp s = .next (s.responds 1 .configError 0)) ∧
    (s.dead = false → BusOk s (xferCount evs) → exec .initOp s = .next
      (State.responds { s.performs evs with
          dc := some .low
          win := .none
          haz := hazAfterCmd s.win s.haz
          lc := .ready
          seqIdx := s.cfg.initBody.length + 3 }
        1 .ok 0)) ∧
    ∀ k < xferCount evs, s.dead = false → BusErrAt s k →
      FailsAt .initOp s evs k (hazAfterCmd s.win s.haz) s.lc

/-- SETWIN (R167, R166, R165): GEOMETRY_ERROR with no effect for an invalid window, else the five sends
of 30_encoding.md R104 and the window open with `2·w·h` bytes due. -/
def Obligations.SetwinOpensWindow : Prop :=
  ∀ (x0 y0 x1 y1 : U16) (s : State),
    let valid := x0.toNat ≤ x1.toNat ∧ (x1.toNat : Int) ≤ (s.cfg.width : Int) - 1 ∧
      y0.toNat ≤ y1.toNat ∧ (y1.toNat : Int) ≤ (s.cfg.height : Int) - 1
    let evs := windowEvents s.cfg x0.toNat y0.toNat x1.toNat y1.toNat
    (s.dead = true → exec (.setwin x0 y0 x1 y1) s = .next (s.responds 9 .configError 0)) ∧
    (s.dead = false → ¬ valid →
      exec (.setwin x0 y0 x1 y1) s = .next (s.responds 9 .geometryError 0)) ∧
    (s.dead = false → valid → BusOk s 5 → exec (.setwin x0 y0 x1 y1) s = .next
      (State.responds { s.performs evs with
          dc := some .low
          win := .opened (2 * (x1.toNat - x0.toNat + 1) * (y1.toNat - y0.toNat + 1))
          haz := hazAfterCmd s.win s.haz }
        9 .ok 0)) ∧
    ∀ k < 5, s.dead = false → valid → BusErrAt s k →
      FailsAt (.setwin x0 y0 x1 y1) s evs k (hazAfterCmd s.win s.haz) s.lc

/-- SETWINF (R168): the window `(0, 0, WIDTH - 1, HEIGHT - 1)`, `2·WIDTH·HEIGHT` bytes due, never
GEOMETRY_ERROR. The panel size is that of a live block (60_exceptions.md R211). -/
def Obligations.SetwinfOpensFullPanel : Prop :=
  ∀ s : State, 1 ≤ s.cfg.width → 1 ≤ s.cfg.height →
    let evs := windowEvents s.cfg 0 0 (s.cfg.width - 1) (s.cfg.height - 1)
    (s.dead = true → exec .setwinf s = .next (s.responds 1 .configError 0)) ∧
    (s.dead = false → BusOk s 5 → exec .setwinf s = .next
      (State.responds { s.performs evs with
          dc := some .low
          win := .opened (2 * s.cfg.width * s.cfg.height)
          haz := hazAfterCmd s.win s.haz }
        1 .ok 0)) ∧
    ∀ k < 5, s.dead = false → BusErrAt s k →
      FailsAt .setwinf s evs k (hazAfterCmd s.win s.haz) s.lc

/-- A window opens only in a window sequence (R169): after the Memory-Write command of SETWIN it is open
with two bytes for each pixel, and an operation that leaves a window open where none was is SETWIN,
SETWINF, DISPLAY or DISPIMG. -/
def Obligations.WindowsOpenOnlyBySequence : Prop :=
  (∀ (x0 y0 x1 y1 : U16) (s t : State) (v : U64), exec (.setwin x0 y0 x1 y1) s = .next t →
    t.responses = s.responses ++ [⟨.ok, v⟩] →
    t.win = .opened (2 * ((x1.toNat - x0.toNat + 1) * (y1.toNat - y0.toNat + 1)))) ∧
  ∀ (i : Instr) (s t : State) (r : Nat), exec i s = .next t → t.win = .opened r →
    (∀ q, s.win ≠ .opened q) →
    (∃ a b c d, i = .setwin a b c d) ∨ i = .setwinf ∨ i = .display ∨ ∃ w h px, i = .dispimg w h px

/-! ## Lifecycle, frame buffer, display (43_facade.md) -/

/-- BEGIN (R181): the pulse, RESET, the init table, READY; after an err in the records `S.lc` is RESET.
With a reset line an open window is closed without a hazard, without one the first command closes it. The
model's own in it: the step index keeps its last value once BEGIN has returned (log 6, DESIGN CHOICE), and
Sleep-Out and Display-On carry no data bytes (log 16, PRESUMED). -/
def Obligations.BeginResetsAndInitialises : Prop :=
  ∀ s : State,
    let pulse : List Event := if s.cfg.hasRst then
      [.rst .high, .wait 5, .rst .low, .wait 20, .rst .high, .wait 150] else []
    let evs := pulse ++ initEvents s.cfg
    let haz := if s.cfg.hasRst then s.haz else hazAfterCmd s.win s.haz
    (s.dead = true → exec .beginOp s = .next (s.responds 1 .configError 0)) ∧
    (s.dead = false → BusOk s (xferCount evs) → exec .beginOp s = .next
      (State.responds { s.performs evs with
          dc := some .low
          rst := if s.cfg.hasRst then some .high else s.rst
          win := .none
          haz := haz
          lc := .ready
          seqIdx := (initTable s.cfg).length }
        1 .ok 0)) ∧
    ∀ k < xferCount evs, s.dead = false → BusErrAt s k → FailsAt .beginOp s evs k haz .reset

/-- CLEAR (R182): every byte of the frame buffer is its channel of the colour, unquantized; nothing
beyond the frame buffer is written, no event, no other state. -/
def Obligations.ClearFillsFrameBuffer : Prop :=
  ∀ (r g b : Byte) (s : State),
    (s.dead = true → exec (.clear r g b) s = .next (s.responds 4 .configError 0)) ∧
    (s.dead = false → ∃ m, exec (.clear r g b) s = .next (({ s with fb := m }).responds 4 .ok 0) ∧
      (∀ x < s.cfg.width, ∀ y < s.cfg.height,
        Mem.lookup m (fbAddr s.cfg.width x y 0) = some r ∧
        Mem.lookup m (fbAddr s.cfg.width x y 1) = some g ∧
        Mem.lookup m (fbAddr s.cfg.width x y 2) = some b) ∧
      ∀ a, 3 * s.cfg.width * s.cfg.height ≤ a → Mem.lookup m a = Mem.lookup s.fb a)

/-- The one pass that CLEAR makes leaves exactly what the loop of R182 leaves, pixel by pixel. -/
def Obligations.ClearIsItsLoop : Prop :=
  ∀ (r g b : Byte) (s : State), Mem.wf s.fb →
    (s.fbClear r g b).fb = clearLoop s.cfg r g b s.fb

/-- FBWR (R183): GEOMETRY_ERROR with no byte written out of range; else the three bytes of the pixel,
every other byte as before. -/
def Obligations.FbwrWritesPixel : Prop :=
  ∀ (x y : U16) (r g b : Byte) (s : State),
    let a := fbAddr s.cfg.width x.toNat y.toNat 0
    (s.dead = true → exec (.fbwr x y r g b) s = .next (s.responds 8 .configError 0)) ∧
    (s.dead = false → s.cfg.width ≤ x.toNat ∨ s.cfg.height ≤ y.toNat →
      exec (.fbwr x y r g b) s = .next (s.responds 8 .geometryError 0)) ∧
    (s.dead = false → x.toNat < s.cfg.width → y.toNat < s.cfg.height →
      ∃ m, exec (.fbwr x y r g b) s = .next (({ s with fb := m }).responds 8 .ok 0) ∧
        Mem.lookup m a = some r ∧ Mem.lookup m (a + 1) = some g ∧
        Mem.lookup m (a + 2) = some b ∧
        ∀ c, c < a ∨ a + 2 < c → Mem.lookup m c = Mem.lookup s.fb c)

/-- FBRD (R184): GEOMETRY_ERROR out of range; else the pixel's bytes packed `{r, g, b}` in bits 23..0,
nothing written. A byte not written since construction is `FB_INIT`'s (log 4). -/
def Obligations.FbrdReadsPixel : Prop :=
  ∀ (x y : U16) (s : State),
    let a := fbAddr s.cfg.width x.toNat y.toNat 0
    (s.dead = true → exec (.fbrd x y) s = .next (s.responds 5 .configError 0)) ∧
    (s.dead = false → s.cfg.width ≤ x.toNat ∨ s.cfg.height ≤ y.toNat →
      exec (.fbrd x y) s = .next (s.responds 5 .geometryError 0)) ∧
    (s.dead = false → x.toNat < s.cfg.width → y.toNat < s.cfg.height →
      exec (.fbrd x y) s = .next (s.responds 5 .ok (BitVec.ofNat 64
        ((s.fbByte a).toNat * 65536 + (s.fbByte (a + 1)).toNat * 256 +
          (s.fbByte (a + 2)).toNat))))

/-- A read sees the last write (20_memory.md R76): FBRD of the pixel an FBWR wrote returns its colour,
and FBRD of any other pixel returns what it returned before. -/
def Obligations.FbrdSeesFbwr : Prop :=
  ∀ (x y x' y' : U16) (r g b : Byte) (s : State), s.dead = false →
    x.toNat < s.cfg.width → y.toNat < s.cfg.height →
    x'.toNat < s.cfg.width → y'.toNat < s.cfg.height →
    ∃ t, exec (.fbwr x y r g b) s = .next t ∧
      exec (.fbrd x y) t = .next (t.responds 5 .ok
        (BitVec.ofNat 64 (r.toNat * 65536 + g.toNat * 256 + b.toNat))) ∧
      ((x', y') ≠ (x, y) → ∃ v, exec (.fbrd x' y') s = .next (s.responds 5 .ok v) ∧
        exec (.fbrd x' y') t = .next (t.responds 5 .ok v))

/-- Frame-buffer addresses (20_memory.md R63, R61): on the panel each is below `3·WIDTH·HEIGHT`, and no
two channels of pixels share one. -/
def Obligations.PixelAddressesDistinct : Prop :=
  ∀ (p : Params) (x y c x' y' c' : Nat), x < p.width → y < p.height → c < 3 →
    x' < p.width → y' < p.height → c' < 3 →
    fbAddr p.width x y c = 3 * (y * p.width + x) + c ∧
    fbAddr p.width x y c < 3 * p.width * p.height ∧
    (fbAddr p.width x y c = fbAddr p.width x' y' c' → x = x' ∧ y = y' ∧ c = c')

/-- DISPLAY (R185): the full-panel window, then the whole frame buffer, encoded, as one data send in
transactions of 64 bytes; the window ends filled; a `2·WIDTH·HEIGHT`-byte send makes
`ceil(2·WIDTH·HEIGHT/64)` transactions. On an err the rest of the frame is unsent. The panel size is
that of a live block (60_exceptions.md R211). -/
def Obligations.DisplaySendsFrameBuffer : Prop :=
  ∀ s : State, 1 ≤ s.cfg.width → 1 ≤ s.cfg.height →
    let image := encodeImage
      (fun x y => (s.fbByte (fbAddr s.cfg.width x y 0), s.fbByte (fbAddr s.cfg.width x y 1),
        s.fbByte (fbAddr s.cfg.width x y 2))) s.cfg.width s.cfg.height
    let evs := windowEvents s.cfg 0 0 (s.cfg.width - 1) (s.cfg.height - 1) ++
      sendEvents image true 64
    image.length = 2 * s.cfg.width * s.cfg.height ∧
    xferCount evs = 5 + (2 * s.cfg.width * s.cfg.height + 63) / 64 ∧
    (s.dead = true → exec .display s = .next (s.responds 1 .configError 0)) ∧
    (s.dead = false → BusOk s (xferCount evs) → exec .display s = .next
      (State.responds { s.performs evs with
          dc := some .high
          win := .opened 0
          haz := hazAfterCmd s.win s.haz }
        1 .ok 0)) ∧
    ∀ k < xferCount evs, s.dead = false → BusErrAt s k →
      FailsAt .display s evs k (hazAfterCmd s.win s.haz) s.lc

/-- DISPIMG (R186): GEOMETRY_ERROR with no event on a size mismatch, the payload consumed; else the
full-panel window and the payload, encoded, as one data send; the frame buffer is neither read nor
written. The panel size is that of a live block (60_exceptions.md R211). -/
def Obligations.DispimgSendsPayload : Prop :=
  ∀ (w h : U16) (pixels : List Byte) (s : State), 1 ≤ s.cfg.width → 1 ≤ s.cfg.height →
    (Instr.dispimg w h pixels).wellFormed = true →
    let image := encodeImage (pixelOf pixels s.cfg.width) s.cfg.width s.cfg.height
    let evs := windowEvents s.cfg 0 0 (s.cfg.width - 1) (s.cfg.height - 1) ++
      sendEvents image true 64
    let len := 5 + 3 * w.toNat * h.toNat
    (s.dead = true → exec (.dispimg w h pixels) s = .next (s.responds len .configError 0)) ∧
    (s.dead = false → w.toNat ≠ s.cfg.width ∨ h.toNat ≠ s.cfg.height →
      exec (.dispimg w h pixels) s = .next (s.responds len .geometryError 0)) ∧
    (s.dead = false → w.toNat = s.cfg.width → h.toNat = s.cfg.height →
      BusOk s (xferCount evs) → exec (.dispimg w h pixels) s = .next
      (State.responds { s.performs evs with
          dc := some .high
          win := .opened 0
          haz := hazAfterCmd s.win s.haz }
        len .ok 0)) ∧
    ∀ k < xferCount evs, s.dead = false → w.toNat = s.cfg.width → h.toNat = s.cfg.height →
      BusErrAt s k → FailsAt (.dispimg w h pixels) s evs k (hazAfterCmd s.win s.haz) s.lc

/-- QUERY (R187): the eleven items of 10_state.md R45, zero-extended; ILLEGAL_OP for any other IDX;
CONFIG_ERROR when dead; nothing written. -/
def Obligations.QueryReadsItems : Prop :=
  ∀ (idx : Byte) (s : State),
    let item : Option Nat :=
      if idx = 0x00 then some s.cfg.width
      else if idx = 0x01 then some s.cfg.height
      else if idx = 0x02 then some (if s.cfg.hasRst then 1 else 0)
      else if idx = 0x03 then some 64
      else if idx = 0x04 then some (match s.lc with
        | .constructed => 0 | .reset => 1 | .initialized => 2 | .ready => 3)
      else if idx = 0x05 then some (match s.win with | .none => 0 | .opened _ => 1 | .unknown => 2)
      else if idx = 0x06 then some (match s.win with | .none => 0 | .opened n => n | .unknown => 0)
      else if idx = 0x07 then some s.haz.toNat
      else if idx = 0x08 then some (match s.dc with
        | some .low => 0 | some .high => 1 | none => 2)
      else if idx = 0x09 then some (match s.rst with
        | some .low => 0 | some .high => 1 | none => 2)
      else if idx = 0x0A then some 0
      else none
    (s.dead = true → exec (.query idx) s = .next (s.responds 2 .configError 0)) ∧
    (s.dead = false → ∀ v, item = some v →
      exec (.query idx) s = .next (s.responds 2 .ok (BitVec.ofNat 64 v))) ∧
    (s.dead = false → item = none →
      exec (.query idx) s = .next (s.responds 2 .illegalOp 0))

/-- No operation checks `S.lc` (R188): from two states that differ in it alone, every operation emits the
same events, leaves the same lines, window, hazards and frame buffer, and returns the same status. -/
def Obligations.LifecycleGatesNothing : Prop :=
  ∀ (i : Instr) (s : State) (l : Lifecycle),
    ∃ t u r q, exec i s = .next t ∧ exec i { s with lc := l } = .next u ∧
      u = { t with lc := u.lc, responses := u.responses } ∧
      t.responses = s.responses ++ [r] ∧ u.responses = s.responses ++ [q] ∧
      q.status = r.status ∧ (i ≠ .query 0x04 → q = r)

/-! ## Over all operations and every step -/

/-- The lines follow the trace (10_state.md R38, R39): `S.dc` and `S.rst` after an operation are the
levels its last `Dc` and `Rst` events wrote, else what they were; no `Rst` event without a reset line,
and none from any operation but RESET and BEGIN. -/
def Obligations.LinesFollowTrace : Prop :=
  ∀ (i : Instr) (s : State), ∃ t evs, exec i s = .next t ∧ t.trace = s.trace ++ evs ∧
    t.dc = lastDc s.dc evs ∧ t.rst = lastRst s.rst evs ∧
    (∀ l, Event.rst l ∈ evs → s.cfg.hasRst = true ∧ (i = .resetOp ∨ i = .beginOp))

/-- Only CLEAR and FBWR write the frame buffer (20_memory.md R72, 10_state.md R46), and only BEGIN,
INIT and RESET the lifecycle (10_state.md R37). -/
def Obligations.WritersOfBufferAndLifecycle : Prop :=
  ∀ (i : Instr) (s : State), ∃ t, exec i s = .next t ∧
    (t.fb = s.fb ∨ (∃ r g b, i = .clear r g b) ∨ ∃ x y r g b, i = .fbwr x y r g b) ∧
    (t.lc = s.lc ∨ i = .resetOp ∨ i = .initOp ∨ i = .beginOp)

/-- The transactions of any operation of a live block carry between 1 and 65535 bytes, and the response
tells the bus agent's answers: TRANSPORT_ERROR exactly where the last transaction was answered err, every
other transaction being answered ok (41_bus_framer.md R144, 60_exceptions.md R213). -/
def Obligations.TransportErrorTellsAnswers : Prop :=
  ∀ (i : Instr) (s : State), ∃ t evs r, exec i s = .next t ∧ t.trace = s.trace ++ evs ∧
    t.responses = s.responses ++ [r] ∧
    (∀ bs, Event.xfer bs ∈ evs → 1 ≤ bs.length ∧ bs.length ≤ 65535) ∧
    t.xfers = s.xfers + xferCount evs ∧
    (r.status = .transportError →
      (∃ k, xferCount evs = k + 1 ∧ BusErrAt s k) ∧ t.win = .unknown ∧ r.result = 0 ∧
      ∃ pre bs, evs = pre ++ [.xfer bs]) ∧
    (r.status ≠ .transportError → BusOk s (xferCount evs))

/-- Construction is the block's only reset (70_reset_and_hazards.md R242): a step clears no hazard bit,
`S.opPos` only grows, and RESET, INIT and BEGIN keep the frame buffer. -/
def Obligations.NoOperationResetsBlock : Prop :=
  (∀ s t : State, step s = .next t → s.haz &&& t.haz = s.haz ∧ s.opPos ≤ t.opPos) ∧
  ∀ (i : Instr) (s t : State), i = .resetOp ∨ i = .initOp ∨ i = .beginOp → exec i s = .next t →
    t.fb = s.fb

/-- What a step never changes (10_state.md R44, R40, R43) and what it only appends to (00_scope.md R8,
20_memory.md R62): the configuration, the bus session, the dead bit, the host's bytes; the trace, and
the responses by at most one. -/
def Obligations.StepOnlyAppends : Prop :=
  ∀ s t : State, step s = .next t →
    t.cfg = s.cfg ∧ t.busOpen = s.busOpen ∧ t.dead = s.dead ∧ t.stream = s.stream ∧
    (∃ evs, t.trace = s.trace ++ evs) ∧
    (t.responses = s.responses ∨ ∃ r, t.responses = s.responses ++ [r])

/-- The block never stops: every step answers a next state (60_exceptions.md R217; 30_encoding.md R100
says a truncated stream is not a fault). -/
def Obligations.EveryStepAnswers : Prop := ∀ s : State, ∃ t, step s = .next t

/-- Every construction meets the invariant, the reset state among them. -/
def Obligations.ConstructionMeetsInvariant : Prop :=
  State.reset.Inv ∧ ∀ (p : Params) (pl : Platform), (construct p pl).Inv

/-- Every step keeps the invariant: the frame buffer stays canonical and inside its address space, the
lines agree with the trace, `S.rst` stays X without a reset line, `S.lc` is never INITIALIZED between
operations, `rem` and every transaction keep to their ranges, RESULT is 0 on every error. -/
def Obligations.StepKeepsInvariant : Prop :=
  ∀ s t : State, s.Inv → step s = .next t → t.Inv

/-- The host's move keeps the invariant (70_reset_and_hazards.md R255). -/
def Obligations.SupplyKeepsInvariant : Prop :=
  ∀ (s : State) (bs : List Byte), s.Inv → (s.supply bs).Inv
end

