-- ==== Sys2Proof/Laws/Codec.lean ====
section
/-! SUPPORT. Chunking (41_bus_framer.md R142) and the converter (40_pixel_codec.md). -/

namespace Sys2Proof.Machine

/-! ## Chunking -/

theorem chunks_nil (c : Nat) : chunks c [] = [] := rfl

/-- More fuel than bytes changes nothing. -/
theorem chunksUpTo_fuel {c : Nat} (hc : 1 ≤ c) (n m : Nat) (bs : List Byte) (hn : bs.length ≤ n)
    (hm : bs.length ≤ m) : chunksUpTo n c bs = chunksUpTo m c bs := by
  induction n generalizing m bs with
  | zero =>
    have : bs = [] := by simpa using hn
    subst this
    cases m <;> rfl
  | succ n ih =>
    cases bs with
    | nil => cases m <;> rfl
    | cons b bs =>
      cases m with
      | zero => simp at hm
      | succ m =>
        simp only [chunksUpTo]
        simp only [List.length_cons] at hn hm
        rw [ih m _ (by simp only [List.length_drop, List.length_cons]; omega)
          (by simp only [List.length_drop, List.length_cons]; omega)]

/-- The first chunk and the rest. -/
theorem chunks_eq {c : Nat} (hc : 1 ≤ c) (bs : List Byte) (hb : bs ≠ []) :
    chunks c bs = bs.take c :: chunks c (bs.drop c) := by
  obtain ⟨b, bs, rfl⟩ := List.exists_cons_of_ne_nil hb
  unfold chunks
  rw [List.length_cons, chunksUpTo]
  congr 1
  exact chunksUpTo_fuel hc _ _ _ (by simp only [List.length_drop, List.length_cons]; omega)
    (Nat.le_refl _)

/-- Strong induction over the chunks of a byte list. -/
theorem chunks_induction {c : Nat} (hc : 1 ≤ c) {P : List Byte → Prop} (h0 : P [])
    (h1 : ∀ bs, bs ≠ [] → P (bs.drop c) → P bs) (bs : List Byte) : P bs := by
  induction h : bs.length using Nat.strong_induction_on generalizing bs with
  | _ n ih =>
    by_cases hb : bs = []
    · exact hb ▸ h0
    · refine h1 bs hb (ih _ ?_ _ rfl)
      have := List.length_pos_iff.mpr hb
      simp only [List.length_drop]
      omega

/-- The concatenation of the chunks is the sent bytes (R142). -/
theorem chunks_flatten {c : Nat} (hc : 1 ≤ c) (bs : List Byte) : (chunks c bs).flatten = bs := by
  induction bs using chunks_induction hc with
  | h0 => rfl
  | h1 bs hb ih => rw [chunks_eq hc bs hb, List.flatten_cons, ih, List.take_append_drop]

/-- Every chunk carries between 1 and `c` bytes (00_scope.md R8). -/
theorem chunks_size {c : Nat} (hc : 1 ≤ c) (bs : List Byte) :
    ∀ k ∈ chunks c bs, 1 ≤ k.length ∧ k.length ≤ c := by
  induction bs using chunks_induction hc with
  | h0 => simp [chunks_nil]
  | h1 bs hb ih =>
    rw [chunks_eq hc bs hb]
    intro k hk
    rcases List.mem_cons.mp hk with rfl | hk
    · have := List.length_pos_iff.mpr hb
      simp only [List.length_take]
      omega
    · exact ih k hk

theorem ceilDiv_zero {c : Nat} (hc : 1 ≤ c) : ceilDiv 0 c = 0 := by
  unfold ceilDiv; exact Nat.div_eq_of_lt (by omega)

theorem ceilDiv_step {c n : Nat} (hc : 1 ≤ c) (hn : 1 ≤ n) :
    ceilDiv n c = ceilDiv (n - c) c + 1 := by
  unfold ceilDiv
  by_cases h : c ≤ n
  · have : n + c - 1 = (n - c + c - 1) + c := by omega
    rw [this, Nat.add_div_right _ (by omega)]
  · have h1 : n - c = 0 := by omega
    rw [h1, Nat.div_eq_of_lt (show 0 + c - 1 < c by omega)]
    have : n + c - 1 = (n - 1) + c := by omega
    rw [this, Nat.add_div_right _ (by omega), Nat.div_eq_of_lt (by omega)]

/-- A send of `N` bytes makes `ceil(N/c)` transactions (R142). -/
theorem chunks_length {c : Nat} (hc : 1 ≤ c) (bs : List Byte) :
    (chunks c bs).length = ceilDiv bs.length c := by
  induction bs using chunks_induction hc with
  | h0 => simp [chunks_nil, ceilDiv_zero hc]
  | h1 bs hb ih =>
    rw [chunks_eq hc bs hb, List.length_cons, ih, List.length_drop,
      ceilDiv_step hc (List.length_pos_iff.mpr hb)]

/-- Chunk `k` carries bytes `k·c` up (20_memory.md R78). -/
theorem chunks_getElem? {c : Nat} (hc : 1 ≤ c) (bs : List Byte) (k : Nat)
    (hk : k * c < bs.length) : (chunks c bs)[k]? = some ((bs.drop (k * c)).take c) := by
  induction k generalizing bs with
  | zero =>
    rw [chunks_eq hc bs (by rintro rfl; simp at hk)]
    simp
  | succ k ih =>
    have hb : bs ≠ [] := by rintro rfl; simp at hk
    rw [Nat.add_mul, Nat.one_mul] at hk
    rw [chunks_eq hc bs hb, List.getElem?_cons_succ, ih _ (by rw [List.length_drop]; omega),
      List.drop_drop]
    congr 3
    ring

/-- A send of at most `c` bytes is one transaction. -/
theorem chunks_single {c : Nat} (bs : List Byte) (hb : bs ≠ []) (h : bs.length ≤ c) :
    chunks c bs = [bs] := by
  have := List.length_pos_iff.mpr hb
  rw [chunks_eq (by omega) bs hb, List.take_of_length_le h, List.drop_eq_nil_of_le h, chunks_nil]

theorem chunkOf_pos (chunk : U16) : 1 ≤ chunkOf chunk := by
  unfold chunkOf
  split
  · decide
  · rename_i h
    have : chunk.toNat ≠ 0 := fun h0 => h (by simpa using congrArg (BitVec.ofNat 16) h0)
    omega

theorem chunkOf_le (chunk : U16) : chunkOf chunk ≤ 65535 := by
  unfold chunkOf
  split
  · decide
  · have := chunk.isLt; omega

/-! ## The conversion -/

/-- `rgb565` on naturals, as 40_pixel_codec.md R120 writes it. -/
theorem rgb565_toNat (r g b : Byte) : (rgb565 r g b).toNat =
    ((r.toNat &&& 0xF8) <<< 8) ||| ((g.toNat &&& 0xFC) <<< 3) ||| (b.toNat >>> 3) := by
  have hr : r.toNat &&& 0xF8 ≤ 0xF8 := Nat.and_le_right
  have hg : g.toNat &&& 0xFC ≤ 0xFC := Nat.and_le_right
  have hb := b.isLt
  simp only [rgb565, BitVec.toNat_or, BitVec.toNat_shiftLeft, BitVec.toNat_ushiftRight,
    BitVec.toNat_setWidth, BitVec.toNat_and, show BitVec.toNat (248 : Byte) = 248 from rfl,
    show BitVec.toNat (252 : Byte) = 252 from rfl]
  norm_num
  rw [Nat.mod_eq_of_lt (show r.toNat &&& 248 < 65536 by omega),
    Nat.mod_eq_of_lt (show g.toNat &&& 252 < 65536 by omega),
    Nat.mod_eq_of_lt (show b.toNat < 65536 by omega),
    Nat.mod_eq_of_lt (show (r.toNat &&& 248) <<< 8 < 65536 by rw [Nat.shiftLeft_eq]; omega),
    Nat.mod_eq_of_lt (show (g.toNat &&& 252) <<< 3 < 65536 by rw [Nat.shiftLeft_eq]; omega)]

theorem hi8_append_lo8 (v : U16) : (hi8 v.toNat ++ lo8 v.toNat : BitVec 16) = v := by
  apply BitVec.eq_of_getLsbD_eq
  intro i hi
  rw [BitVec.getLsbD_append]
  simp only [hi8, lo8, BitVec.getLsbD_ofNat]
  split
  · rename_i h
    simp only [h, decide_true, Bool.true_and, Nat.testBit_and, BitVec.testBit_toNat]
    interval_cases i <;> simp [Nat.testBit]
  · rename_i h
    have h8 : i - 8 < 8 := by omega
    simp only [h8, decide_true, Bool.true_and, Nat.testBit_and, Nat.testBit_shiftRight,
      BitVec.testBit_toNat]
    rw [show 8 + (i - 8) = i by omega]
    interval_cases i <;> simp [Nat.testBit]

/-! ## The frame encoder -/

theorem encodeFrame_length (img : List Byte) (n : Nat) (h : img.length = 3 * n) :
    (encodeFrame img).length = 2 * n := by
  induction n generalizing img with
  | zero =>
    have : img = [] := by simpa using h
    subst this; rfl
  | succ n ih =>
    match img, h with
    | r :: g :: b :: rest, h =>
      simp only [List.length_cons] at h
      simp only [encodeFrame, List.length_append, sampleBytes, List.length_cons, List.length_nil,
        ih rest (by omega)]
      ring

/-- Encoding is done pixel by pixel, so it can be cut between pixels. -/
theorem encodeFrame_append (n : Nat) (u v : List Byte) (h : u.length = 3 * n) :
    encodeFrame (u ++ v) = encodeFrame u ++ encodeFrame v := by
  induction n generalizing u with
  | zero =>
    have : u = [] := by simpa using h
    subst this; rfl
  | succ n ih =>
    match u, h with
    | r :: g :: b :: rest, h =>
      simp only [List.length_cons] at h
      simp only [List.cons_append, encodeFrame, ih rest (by omega), List.append_assoc]

/-- The output for every LANES is the output of the scalar encoder (R124). -/
theorem encodeLanes_eq {lanes : Nat} (hl : 1 ≤ lanes) (img : List Byte) :
    encodeLanes lanes img = encodeFrame img := by
  unfold encodeLanes
  induction img using chunks_induction (show 1 ≤ 3 * lanes by omega) with
  | h0 => rfl
  | h1 bs hb ih =>
    rw [chunks_eq (by omega) bs hb, List.map_cons, List.flatten_cons, ih]
    by_cases h : 3 * lanes ≤ bs.length
    · rw [← encodeFrame_append lanes, List.take_append_drop]
      simp [h]
    · rw [List.take_of_length_le (by omega), List.drop_eq_nil_of_le (by omega)]
      simp [encodeFrame]

/-- The encoder as a list over pixel numbers (R123). -/
theorem encodeFrame_eq_flatMap (img : List Byte) (n : Nat) (h : img.length = 3 * n) :
    encodeFrame img = (List.range n).flatMap fun i =>
      sampleBytes (rgb565 (img.getD (3 * i) 0) (img.getD (3 * i + 1) 0)
        (img.getD (3 * i + 2) 0)) := by
  induction n generalizing img with
  | zero =>
    have : img = [] := by simpa using h
    subst this; rfl
  | succ n ih =>
    match img, h with
    | r :: g :: b :: rest, h =>
      simp only [List.length_cons] at h
      rw [encodeFrame, ih rest (by omega), List.range_succ_eq_map, List.flatMap_cons,
        List.flatMap_map]
      simp only [Nat.mul_zero, Nat.zero_add, List.getD_cons_zero, List.getD_cons_succ,
        Nat.succ_eq_add_one, Nat.mul_add, Nat.mul_one, Nat.add_assoc]

/-- Row-major order: the flat walk over `w·h` pixels is the double loop (R122). -/
theorem range_mul_flatMap {α : Type} (w h : Nat) (f : Nat → List α) :
    (List.range (w * h)).flatMap f =
      (List.range h).flatMap fun y => (List.range w).flatMap fun x => f (y * w + x) := by
  induction h with
  | zero => simp
  | succ h ih =>
    rw [Nat.mul_succ, List.range_add, List.flatMap_append, ih, List.range_succ,
      List.flatMap_append, List.flatMap_map]
    simp [Nat.mul_comm]

end Sys2Proof.Machine
end

