-- ==== Sys2Proof/Laws/Decode.lean ====
section
/-! SUPPORT. Small lemmas of the host encoding: the opcode map, field assembly and lengths. -/

namespace Sys2Proof

theorem Opcode.ofByte_byte (o : Opcode) : Opcode.ofByte o.byte = some o := by
  cases o <;> decide

theorem Opcode.byte_of_ofByte {b : Byte} {o : Opcode} (h : Opcode.ofByte b = some o) :
    o.byte = b := by
  have := List.find?_some h
  simpa using this

/-- A u16 field read back from its two bytes (R92). -/
theorem be16_u16Bytes (v : U16) : be16 (v.extractLsb' 8 8) (v.extractLsb' 0 8) = v := by
  apply BitVec.eq_of_getLsbD_eq
  intro i hi
  unfold be16
  rw [BitVec.getLsbD_append]
  split
  · simp [*]
  · rename_i h
    rw [BitVec.getLsbD_extractLsb']
    simp only [show i - 8 < 8 by omega, decide_true, Bool.true_and]
    congr 1
    omega

/-- The two bytes of an assembled u16 field (R92). -/
theorem u16Bytes_be16 (hi lo : Byte) : u16Bytes (be16 hi lo) = [hi, lo] := by
  have h1 : (be16 hi lo).extractLsb' 8 8 = hi := by
    apply BitVec.eq_of_getLsbD_eq
    intro i h
    unfold be16
    rw [BitVec.getLsbD_extractLsb', BitVec.getLsbD_append]
    simp [h]
  have h2 : (be16 hi lo).extractLsb' 0 8 = lo := by
    apply BitVec.eq_of_getLsbD_eq
    intro i h
    unfold be16
    rw [BitVec.getLsbD_extractLsb', BitVec.getLsbD_append]
    simp [h]
  rw [u16Bytes, h1, h2]

@[simp] theorem u16Bytes_length (v : U16) : (u16Bytes v).length = 2 := rfl

theorem takePayload_op {n : Nat} {rest rest' : List Byte} {mk : List Byte → Instr} {i : Instr}
    (h : takePayload n rest mk = .op i rest') :
    n ≤ rest.length ∧ i = mk (rest.take n) ∧ rest' = rest.drop n := by
  unfold takePayload at h
  split at h
  · simp at h
  · obtain ⟨rfl, rfl⟩ := Decoded.op.inj h
    exact ⟨by omega, rfl, rfl⟩

/-- A decoded operation has taken as many bytes as its length (R99). -/
theorem decodeOperands_length {o : Opcode} {bs rest : List Byte} {i : Instr}
    (h : decodeOperands o bs = .op i rest) : bs.length + 1 = i.length + rest.length := by
  cases o <;> simp only [decodeOperands, decodeFC, decodeFS, decodeFW, decodeFP, decodeFA, decodeFI,
    decodeFX] at h <;> (try split at h) <;>
    first
    | (obtain ⟨rfl, rfl⟩ := Decoded.op.inj h
       simp only [Instr.length, List.length_cons]
       omega)
    | (obtain ⟨h1, rfl, rfl⟩ := takePayload_op h
       simp only [Instr.length, List.length_cons, List.length_take, List.length_drop]
       omega)
    | exact absurd h (by simp)

/-- A decoded operation has taken as many bytes as its length (R99). -/
theorem decode_length {bs rest : List Byte} {i : Instr} (h : decode bs = .op i rest) :
    bs.length = i.length + rest.length := by
  cases bs with
  | nil => simp [decode] at h
  | cons b bs =>
    simp only [decode] at h
    split at h
    · simp at h
    · exact decodeOperands_length h

theorem decode_illegal {bs : List Byte} {b : Byte} (h : decode bs = .illegal b) :
    ∃ rest, bs = b :: rest ∧ Opcode.ofByte b = none := by
  cases bs with
  | nil => simp [decode] at h
  | cons c bs =>
    simp only [decode] at h
    split at h
    · obtain rfl := Decoded.illegal.inj h
      exact ⟨bs, rfl, ‹_›⟩
    · rename_i o _
      exfalso
      revert h
      cases o <;> simp only [decodeOperands, decodeFC, decodeFS, decodeFW, decodeFP, decodeFA,
        decodeFI, decodeFX, takePayload] <;> (try split) <;> (try split) <;> simp

end Sys2Proof
end

