-- ==== Sys2Proof/Laws/State.lean ====
section
/-! SUPPORT. One lemma per field of State and per update of Machine/, so that no later proof unfolds a
record update. -/

namespace Sys2Proof.Machine

variable (s : State)

@[simp] theorem State.setWin_cfg (w : Window) : (s.setWin w).cfg = s.cfg := rfl
@[simp] theorem State.setWin_stream (w : Window) : (s.setWin w).stream = s.stream := rfl
@[simp] theorem State.setWin_opPos (w : Window) : (s.setWin w).opPos = s.opPos := rfl
@[simp] theorem State.setWin_seqIdx (w : Window) : (s.setWin w).seqIdx = s.seqIdx := rfl
@[simp] theorem State.setWin_lc (w : Window) : (s.setWin w).lc = s.lc := rfl
@[simp] theorem State.setWin_dc (w : Window) : (s.setWin w).dc = s.dc := rfl
@[simp] theorem State.setWin_rst (w : Window) : (s.setWin w).rst = s.rst := rfl
@[simp] theorem State.setWin_busOpen (w : Window) : (s.setWin w).busOpen = s.busOpen := rfl
@[simp] theorem State.setWin_win (w : Window) : (s.setWin w).win = w := rfl
@[simp] theorem State.setWin_haz (w : Window) : (s.setWin w).haz = s.haz := rfl
@[simp] theorem State.setWin_dead (w : Window) : (s.setWin w).dead = s.dead := rfl
@[simp] theorem State.setWin_fb (w : Window) : (s.setWin w).fb = s.fb := rfl
@[simp] theorem State.setWin_trace (w : Window) : (s.setWin w).trace = s.trace := rfl
@[simp] theorem State.setWin_responses (w : Window) : (s.setWin w).responses = s.responses := rfl
@[simp] theorem State.setWin_answers (w : Window) : (s.setWin w).answers = s.answers := rfl
@[simp] theorem State.setWin_xfers (w : Window) : (s.setWin w).xfers = s.xfers := rfl

@[simp] theorem State.raiseHaz_cfg (h : BitVec 3) : (s.raiseHaz h).cfg = s.cfg := rfl
@[simp] theorem State.raiseHaz_stream (h : BitVec 3) : (s.raiseHaz h).stream = s.stream := rfl
@[simp] theorem State.raiseHaz_opPos (h : BitVec 3) : (s.raiseHaz h).opPos = s.opPos := rfl
@[simp] theorem State.raiseHaz_seqIdx (h : BitVec 3) : (s.raiseHaz h).seqIdx = s.seqIdx := rfl
@[simp] theorem State.raiseHaz_lc (h : BitVec 3) : (s.raiseHaz h).lc = s.lc := rfl
@[simp] theorem State.raiseHaz_dc (h : BitVec 3) : (s.raiseHaz h).dc = s.dc := rfl
@[simp] theorem State.raiseHaz_rst (h : BitVec 3) : (s.raiseHaz h).rst = s.rst := rfl
@[simp] theorem State.raiseHaz_busOpen (h : BitVec 3) : (s.raiseHaz h).busOpen = s.busOpen := rfl
@[simp] theorem State.raiseHaz_win (h : BitVec 3) : (s.raiseHaz h).win = s.win := rfl
@[simp] theorem State.raiseHaz_haz (h : BitVec 3) : (s.raiseHaz h).haz = s.haz ||| h := rfl
@[simp] theorem State.raiseHaz_dead (h : BitVec 3) : (s.raiseHaz h).dead = s.dead := rfl
@[simp] theorem State.raiseHaz_fb (h : BitVec 3) : (s.raiseHaz h).fb = s.fb := rfl
@[simp] theorem State.raiseHaz_trace (h : BitVec 3) : (s.raiseHaz h).trace = s.trace := rfl
@[simp] theorem State.raiseHaz_responses (h : BitVec 3) : (s.raiseHaz h).responses = s.responses := rfl
@[simp] theorem State.raiseHaz_answers (h : BitVec 3) : (s.raiseHaz h).answers = s.answers := rfl
@[simp] theorem State.raiseHaz_xfers (h : BitVec 3) : (s.raiseHaz h).xfers = s.xfers := rfl

@[simp] theorem State.emit_cfg (e : Event) : (s.emit e).cfg = s.cfg := rfl
@[simp] theorem State.emit_stream (e : Event) : (s.emit e).stream = s.stream := rfl
@[simp] theorem State.emit_opPos (e : Event) : (s.emit e).opPos = s.opPos := rfl
@[simp] theorem State.emit_seqIdx (e : Event) : (s.emit e).seqIdx = s.seqIdx := rfl
@[simp] theorem State.emit_lc (e : Event) : (s.emit e).lc = s.lc := rfl
@[simp] theorem State.emit_dc (e : Event) : (s.emit e).dc = s.dc := rfl
@[simp] theorem State.emit_rst (e : Event) : (s.emit e).rst = s.rst := rfl
@[simp] theorem State.emit_busOpen (e : Event) : (s.emit e).busOpen = s.busOpen := rfl
@[simp] theorem State.emit_win (e : Event) : (s.emit e).win = s.win := rfl
@[simp] theorem State.emit_haz (e : Event) : (s.emit e).haz = s.haz := rfl
@[simp] theorem State.emit_dead (e : Event) : (s.emit e).dead = s.dead := rfl
@[simp] theorem State.emit_fb (e : Event) : (s.emit e).fb = s.fb := rfl
@[simp] theorem State.emit_trace (e : Event) : (s.emit e).trace = s.trace ++ [e] := rfl
@[simp] theorem State.emit_responses (e : Event) : (s.emit e).responses = s.responses := rfl
@[simp] theorem State.emit_answers (e : Event) : (s.emit e).answers = s.answers := rfl
@[simp] theorem State.emit_xfers (e : Event) : (s.emit e).xfers = s.xfers := rfl

@[simp] theorem State.takeAnswer_cfg : (s.takeAnswer).cfg = s.cfg := rfl
@[simp] theorem State.takeAnswer_stream : (s.takeAnswer).stream = s.stream := rfl
@[simp] theorem State.takeAnswer_opPos : (s.takeAnswer).opPos = s.opPos := rfl
@[simp] theorem State.takeAnswer_seqIdx : (s.takeAnswer).seqIdx = s.seqIdx := rfl
@[simp] theorem State.takeAnswer_lc : (s.takeAnswer).lc = s.lc := rfl
@[simp] theorem State.takeAnswer_dc : (s.takeAnswer).dc = s.dc := rfl
@[simp] theorem State.takeAnswer_rst : (s.takeAnswer).rst = s.rst := rfl
@[simp] theorem State.takeAnswer_busOpen : (s.takeAnswer).busOpen = s.busOpen := rfl
@[simp] theorem State.takeAnswer_win : (s.takeAnswer).win = s.win := rfl
@[simp] theorem State.takeAnswer_haz : (s.takeAnswer).haz = s.haz := rfl
@[simp] theorem State.takeAnswer_dead : (s.takeAnswer).dead = s.dead := rfl
@[simp] theorem State.takeAnswer_fb : (s.takeAnswer).fb = s.fb := rfl
@[simp] theorem State.takeAnswer_trace : (s.takeAnswer).trace = s.trace := rfl
@[simp] theorem State.takeAnswer_responses : (s.takeAnswer).responses = s.responses := rfl
@[simp] theorem State.takeAnswer_answers : (s.takeAnswer).answers = s.answers.drop 1 := rfl
@[simp] theorem State.takeAnswer_xfers : (s.takeAnswer).xfers = s.xfers + 1 := rfl

@[simp] theorem State.driveDc_cfg (d : Bool) : (s.driveDc d).cfg = s.cfg := rfl
@[simp] theorem State.driveDc_stream (d : Bool) : (s.driveDc d).stream = s.stream := rfl
@[simp] theorem State.driveDc_opPos (d : Bool) : (s.driveDc d).opPos = s.opPos := rfl
@[simp] theorem State.driveDc_seqIdx (d : Bool) : (s.driveDc d).seqIdx = s.seqIdx := rfl
@[simp] theorem State.driveDc_lc (d : Bool) : (s.driveDc d).lc = s.lc := rfl
@[simp] theorem State.driveDc_dc (d : Bool) : (s.driveDc d).dc = some (dcLevel d) := rfl
@[simp] theorem State.driveDc_rst (d : Bool) : (s.driveDc d).rst = s.rst := rfl
@[simp] theorem State.driveDc_busOpen (d : Bool) : (s.driveDc d).busOpen = s.busOpen := rfl
@[simp] theorem State.driveDc_win (d : Bool) : (s.driveDc d).win = s.win := rfl
@[simp] theorem State.driveDc_haz (d : Bool) : (s.driveDc d).haz = s.haz := rfl
@[simp] theorem State.driveDc_dead (d : Bool) : (s.driveDc d).dead = s.dead := rfl
@[simp] theorem State.driveDc_fb (d : Bool) : (s.driveDc d).fb = s.fb := rfl
@[simp] theorem State.driveDc_trace (d : Bool) : (s.driveDc d).trace = s.trace ++ [.dc (dcLevel d)] := rfl
@[simp] theorem State.driveDc_responses (d : Bool) : (s.driveDc d).responses = s.responses := rfl
@[simp] theorem State.driveDc_answers (d : Bool) : (s.driveDc d).answers = s.answers := rfl
@[simp] theorem State.driveDc_xfers (d : Bool) : (s.driveDc d).xfers = s.xfers := rfl

@[simp] theorem State.setLc_cfg (l : Lifecycle) : (s.setLc l).cfg = s.cfg := rfl
@[simp] theorem State.setLc_stream (l : Lifecycle) : (s.setLc l).stream = s.stream := rfl
@[simp] theorem State.setLc_opPos (l : Lifecycle) : (s.setLc l).opPos = s.opPos := rfl
@[simp] theorem State.setLc_seqIdx (l : Lifecycle) : (s.setLc l).seqIdx = s.seqIdx := rfl
@[simp] theorem State.setLc_lc (l : Lifecycle) : (s.setLc l).lc = l := rfl
@[simp] theorem State.setLc_dc (l : Lifecycle) : (s.setLc l).dc = s.dc := rfl
@[simp] theorem State.setLc_rst (l : Lifecycle) : (s.setLc l).rst = s.rst := rfl
@[simp] theorem State.setLc_busOpen (l : Lifecycle) : (s.setLc l).busOpen = s.busOpen := rfl
@[simp] theorem State.setLc_win (l : Lifecycle) : (s.setLc l).win = s.win := rfl
@[simp] theorem State.setLc_haz (l : Lifecycle) : (s.setLc l).haz = s.haz := rfl
@[simp] theorem State.setLc_dead (l : Lifecycle) : (s.setLc l).dead = s.dead := rfl
@[simp] theorem State.setLc_fb (l : Lifecycle) : (s.setLc l).fb = s.fb := rfl
@[simp] theorem State.setLc_trace (l : Lifecycle) : (s.setLc l).trace = s.trace := rfl
@[simp] theorem State.setLc_responses (l : Lifecycle) : (s.setLc l).responses = s.responses := rfl
@[simp] theorem State.setLc_answers (l : Lifecycle) : (s.setLc l).answers = s.answers := rfl
@[simp] theorem State.setLc_xfers (l : Lifecycle) : (s.setLc l).xfers = s.xfers := rfl

@[simp] theorem State.setSeqIdx_cfg (n : Nat) : (s.setSeqIdx n).cfg = s.cfg := rfl
@[simp] theorem State.setSeqIdx_stream (n : Nat) : (s.setSeqIdx n).stream = s.stream := rfl
@[simp] theorem State.setSeqIdx_opPos (n : Nat) : (s.setSeqIdx n).opPos = s.opPos := rfl
@[simp] theorem State.setSeqIdx_seqIdx (n : Nat) : (s.setSeqIdx n).seqIdx = n := rfl
@[simp] theorem State.setSeqIdx_lc (n : Nat) : (s.setSeqIdx n).lc = s.lc := rfl
@[simp] theorem State.setSeqIdx_dc (n : Nat) : (s.setSeqIdx n).dc = s.dc := rfl
@[simp] theorem State.setSeqIdx_rst (n : Nat) : (s.setSeqIdx n).rst = s.rst := rfl
@[simp] theorem State.setSeqIdx_busOpen (n : Nat) : (s.setSeqIdx n).busOpen = s.busOpen := rfl
@[simp] theorem State.setSeqIdx_win (n : Nat) : (s.setSeqIdx n).win = s.win := rfl
@[simp] theorem State.setSeqIdx_haz (n : Nat) : (s.setSeqIdx n).haz = s.haz := rfl
@[simp] theorem State.setSeqIdx_dead (n : Nat) : (s.setSeqIdx n).dead = s.dead := rfl
@[simp] theorem State.setSeqIdx_fb (n : Nat) : (s.setSeqIdx n).fb = s.fb := rfl
@[simp] theorem State.setSeqIdx_trace (n : Nat) : (s.setSeqIdx n).trace = s.trace := rfl
@[simp] theorem State.setSeqIdx_responses (n : Nat) : (s.setSeqIdx n).responses = s.responses := rfl
@[simp] theorem State.setSeqIdx_answers (n : Nat) : (s.setSeqIdx n).answers = s.answers := rfl
@[simp] theorem State.setSeqIdx_xfers (n : Nat) : (s.setSeqIdx n).xfers = s.xfers := rfl

@[simp] theorem State.fbWrite_cfg (a : Nat) (bs : List Byte) : (s.fbWrite a bs).cfg = s.cfg := rfl
@[simp] theorem State.fbWrite_stream (a : Nat) (bs : List Byte) : (s.fbWrite a bs).stream = s.stream := rfl
@[simp] theorem State.fbWrite_opPos (a : Nat) (bs : List Byte) : (s.fbWrite a bs).opPos = s.opPos := rfl
@[simp] theorem State.fbWrite_seqIdx (a : Nat) (bs : List Byte) : (s.fbWrite a bs).seqIdx = s.seqIdx := rfl
@[simp] theorem State.fbWrite_lc (a : Nat) (bs : List Byte) : (s.fbWrite a bs).lc = s.lc := rfl
@[simp] theorem State.fbWrite_dc (a : Nat) (bs : List Byte) : (s.fbWrite a bs).dc = s.dc := rfl
@[simp] theorem State.fbWrite_rst (a : Nat) (bs : List Byte) : (s.fbWrite a bs).rst = s.rst := rfl
@[simp] theorem State.fbWrite_busOpen (a : Nat) (bs : List Byte) : (s.fbWrite a bs).busOpen = s.busOpen := rfl
@[simp] theorem State.fbWrite_win (a : Nat) (bs : List Byte) : (s.fbWrite a bs).win = s.win := rfl
@[simp] theorem State.fbWrite_haz (a : Nat) (bs : List Byte) : (s.fbWrite a bs).haz = s.haz := rfl
@[simp] theorem State.fbWrite_dead (a : Nat) (bs : List Byte) : (s.fbWrite a bs).dead = s.dead := rfl
@[simp] theorem State.fbWrite_fb (a : Nat) (bs : List Byte) : (s.fbWrite a bs).fb = Mem.writes s.fb a bs := rfl
@[simp] theorem State.fbWrite_trace (a : Nat) (bs : List Byte) : (s.fbWrite a bs).trace = s.trace := rfl
@[simp] theorem State.fbWrite_responses (a : Nat) (bs : List Byte) : (s.fbWrite a bs).responses = s.responses := rfl
@[simp] theorem State.fbWrite_answers (a : Nat) (bs : List Byte) : (s.fbWrite a bs).answers = s.answers := rfl
@[simp] theorem State.fbWrite_xfers (a : Nat) (bs : List Byte) : (s.fbWrite a bs).xfers = s.xfers := rfl

@[simp] theorem State.fbClear_cfg (r g b : Byte) : (s.fbClear r g b).cfg = s.cfg := rfl
@[simp] theorem State.fbClear_stream (r g b : Byte) : (s.fbClear r g b).stream = s.stream := rfl
@[simp] theorem State.fbClear_opPos (r g b : Byte) : (s.fbClear r g b).opPos = s.opPos := rfl
@[simp] theorem State.fbClear_seqIdx (r g b : Byte) : (s.fbClear r g b).seqIdx = s.seqIdx := rfl
@[simp] theorem State.fbClear_lc (r g b : Byte) : (s.fbClear r g b).lc = s.lc := rfl
@[simp] theorem State.fbClear_dc (r g b : Byte) : (s.fbClear r g b).dc = s.dc := rfl
@[simp] theorem State.fbClear_rst (r g b : Byte) : (s.fbClear r g b).rst = s.rst := rfl
@[simp] theorem State.fbClear_busOpen (r g b : Byte) : (s.fbClear r g b).busOpen = s.busOpen := rfl
@[simp] theorem State.fbClear_win (r g b : Byte) : (s.fbClear r g b).win = s.win := rfl
@[simp] theorem State.fbClear_haz (r g b : Byte) : (s.fbClear r g b).haz = s.haz := rfl
@[simp] theorem State.fbClear_dead (r g b : Byte) : (s.fbClear r g b).dead = s.dead := rfl
@[simp] theorem State.fbClear_fb (r g b : Byte) : (s.fbClear r g b).fb = Mem.fill s.fb s.cfg.fbSize (channelAt r g b) := rfl
@[simp] theorem State.fbClear_trace (r g b : Byte) : (s.fbClear r g b).trace = s.trace := rfl
@[simp] theorem State.fbClear_responses (r g b : Byte) : (s.fbClear r g b).responses = s.responses := rfl
@[simp] theorem State.fbClear_answers (r g b : Byte) : (s.fbClear r g b).answers = s.answers := rfl
@[simp] theorem State.fbClear_xfers (r g b : Byte) : (s.fbClear r g b).xfers = s.xfers := rfl

@[simp] theorem State.supply_cfg (bs : List Byte) : (s.supply bs).cfg = s.cfg := rfl
@[simp] theorem State.supply_stream (bs : List Byte) : (s.supply bs).stream = s.stream ++ bs := rfl
@[simp] theorem State.supply_opPos (bs : List Byte) : (s.supply bs).opPos = s.opPos := rfl
@[simp] theorem State.supply_seqIdx (bs : List Byte) : (s.supply bs).seqIdx = s.seqIdx := rfl
@[simp] theorem State.supply_lc (bs : List Byte) : (s.supply bs).lc = s.lc := rfl
@[simp] theorem State.supply_dc (bs : List Byte) : (s.supply bs).dc = s.dc := rfl
@[simp] theorem State.supply_rst (bs : List Byte) : (s.supply bs).rst = s.rst := rfl
@[simp] theorem State.supply_busOpen (bs : List Byte) : (s.supply bs).busOpen = s.busOpen := rfl
@[simp] theorem State.supply_win (bs : List Byte) : (s.supply bs).win = s.win := rfl
@[simp] theorem State.supply_haz (bs : List Byte) : (s.supply bs).haz = s.haz := rfl
@[simp] theorem State.supply_dead (bs : List Byte) : (s.supply bs).dead = s.dead := rfl
@[simp] theorem State.supply_fb (bs : List Byte) : (s.supply bs).fb = s.fb := rfl
@[simp] theorem State.supply_trace (bs : List Byte) : (s.supply bs).trace = s.trace := rfl
@[simp] theorem State.supply_responses (bs : List Byte) : (s.supply bs).responses = s.responses := rfl
@[simp] theorem State.supply_answers (bs : List Byte) : (s.supply bs).answers = s.answers := rfl
@[simp] theorem State.supply_xfers (bs : List Byte) : (s.supply bs).xfers = s.xfers := rfl

@[simp] theorem State.performs_cfg (evs : List Event) : (s.performs evs).cfg = s.cfg := rfl
@[simp] theorem State.performs_stream (evs : List Event) : (s.performs evs).stream = s.stream := rfl
@[simp] theorem State.performs_opPos (evs : List Event) : (s.performs evs).opPos = s.opPos := rfl
@[simp] theorem State.performs_seqIdx (evs : List Event) : (s.performs evs).seqIdx = s.seqIdx := rfl
@[simp] theorem State.performs_lc (evs : List Event) : (s.performs evs).lc = s.lc := rfl
@[simp] theorem State.performs_dc (evs : List Event) : (s.performs evs).dc = s.dc := rfl
@[simp] theorem State.performs_rst (evs : List Event) : (s.performs evs).rst = s.rst := rfl
@[simp] theorem State.performs_busOpen (evs : List Event) : (s.performs evs).busOpen = s.busOpen := rfl
@[simp] theorem State.performs_win (evs : List Event) : (s.performs evs).win = s.win := rfl
@[simp] theorem State.performs_haz (evs : List Event) : (s.performs evs).haz = s.haz := rfl
@[simp] theorem State.performs_dead (evs : List Event) : (s.performs evs).dead = s.dead := rfl
@[simp] theorem State.performs_fb (evs : List Event) : (s.performs evs).fb = s.fb := rfl
@[simp] theorem State.performs_trace (evs : List Event) : (s.performs evs).trace = s.trace ++ evs := rfl
@[simp] theorem State.performs_responses (evs : List Event) : (s.performs evs).responses = s.responses := rfl
@[simp] theorem State.performs_answers (evs : List Event) : (s.performs evs).answers = s.answers.drop (xferCount evs) := rfl
@[simp] theorem State.performs_xfers (evs : List Event) : (s.performs evs).xfers = s.xfers + xferCount evs := rfl

@[simp] theorem finish_cfg (n : Nat) (v : U64) (f : Flow) : (finish n v f).cfg = f.state.cfg := rfl
@[simp] theorem finish_stream (n : Nat) (v : U64) (f : Flow) : (finish n v f).stream = f.state.stream := rfl
@[simp] theorem finish_opPos (n : Nat) (v : U64) (f : Flow) : (finish n v f).opPos = f.state.opPos + n := rfl
@[simp] theorem finish_seqIdx (n : Nat) (v : U64) (f : Flow) : (finish n v f).seqIdx = f.state.seqIdx := rfl
@[simp] theorem finish_lc (n : Nat) (v : U64) (f : Flow) : (finish n v f).lc = f.state.lc := rfl
@[simp] theorem finish_dc (n : Nat) (v : U64) (f : Flow) : (finish n v f).dc = f.state.dc := rfl
@[simp] theorem finish_rst (n : Nat) (v : U64) (f : Flow) : (finish n v f).rst = f.state.rst := rfl
@[simp] theorem finish_busOpen (n : Nat) (v : U64) (f : Flow) : (finish n v f).busOpen = f.state.busOpen := rfl
@[simp] theorem finish_win (n : Nat) (v : U64) (f : Flow) : (finish n v f).win = f.state.win := rfl
@[simp] theorem finish_haz (n : Nat) (v : U64) (f : Flow) : (finish n v f).haz = f.state.haz := rfl
@[simp] theorem finish_dead (n : Nat) (v : U64) (f : Flow) : (finish n v f).dead = f.state.dead := rfl
@[simp] theorem finish_fb (n : Nat) (v : U64) (f : Flow) : (finish n v f).fb = f.state.fb := rfl
@[simp] theorem finish_trace (n : Nat) (v : U64) (f : Flow) : (finish n v f).trace = f.state.trace := rfl
@[simp] theorem finish_responses (n : Nat) (v : U64) (f : Flow) : (finish n v f).responses = f.state.responses ++ [f.response v] := rfl
@[simp] theorem finish_answers (n : Nat) (v : U64) (f : Flow) : (finish n v f).answers = f.state.answers := rfl
@[simp] theorem finish_xfers (n : Nat) (v : U64) (f : Flow) : (finish n v f).xfers = f.state.xfers := rfl

end Sys2Proof.Machine
end

