-- ==== Sys2Proof/Laws/Memory.lean ====
section
/-! SUPPORT. The frame buffer's storage: read after write, the canonical form, and the one-pass forms
(`Mem.fill`, `Mem.run`) against the byte-by-byte ones. -/

namespace Sys2Proof.Machine

/-! ## Read after write -/

theorem Mem.lookup_write_self (m : List Host.Cell) (a : Nat) (b : Byte) :
    Mem.lookup (Mem.write m a b) a = some b := by
  induction m with
  | nil => simp [Mem.write, Mem.lookup]
  | cons c m ih =>
    obtain ⟨k, v⟩ := c
    unfold Mem.write
    split
    · simp [Mem.lookup, *]
    · split <;> simp [Mem.lookup]

theorem Mem.lookup_write_ne (m : List Host.Cell) {a c : Nat} (b : Byte) (h : c ≠ a) :
    Mem.lookup (Mem.write m a b) c = Mem.lookup m c := by
  induction m with
  | nil => simp only [Mem.write, Mem.lookup]; split <;> simp [h.symm]
  | cons kv m ih =>
    obtain ⟨k, v⟩ := kv
    unfold Mem.write
    split
    · simp only [Mem.lookup, ih]
    · split
      · subst k
        simp [Mem.lookup, h.symm]
      · simp only [Mem.lookup]
        have := h.symm
        by_cases h1 : a < c
        · simp [h1]
        · simp only [h1, if_false, this]
          rw [if_neg (by omega), if_neg (by omega)]

theorem Mem.lookup_write (m : List Host.Cell) (a c : Nat) (b : Byte) :
    Mem.lookup (Mem.write m a b) c = if c = a then some b else Mem.lookup m c := by
  split
  · subst c; exact Mem.lookup_write_self m a b
  · exact Mem.lookup_write_ne m b ‹_›

/-- `MemWrite` of a byte list, read back: the list inside its range, the old bytes outside. -/
theorem Mem.lookup_writes (m : List Host.Cell) (a : Nat) (bs : List Byte) (c : Nat) :
    Mem.lookup (Mem.writes m a bs) c =
      if a ≤ c ∧ c < a + bs.length then bs[c - a]? else Mem.lookup m c := by
  induction bs generalizing m a with
  | nil => simp [Mem.writes]
  | cons b bs ih =>
    simp only [Mem.writes, ih, Mem.lookup_write, List.length_cons]
    by_cases h0 : c = a
    · subst c
      rw [if_neg (by omega), if_pos rfl, if_pos (by omega)]
      simp
    · by_cases h1 : a ≤ c ∧ c < a + (bs.length + 1)
      · rw [if_pos h1, if_pos (by omega)]
        have : c - a = (c - (a + 1)) + 1 := by omega
        rw [this, List.getElem?_cons_succ]
      · rw [if_neg h1, if_neg (by omega), if_neg h0]

/-! ## One-pass forms -/

theorem Mem.lookup_dropWhile (m : List Host.Cell) (n a : Nat) (h : n ≤ a) :
    Mem.lookup (m.dropWhile fun c => c.1 < n) a = Mem.lookup m a := by
  induction m with
  | nil => rfl
  | cons c m ih =>
    obtain ⟨k, v⟩ := c
    simp only [List.dropWhile_cons]
    split
    · rename_i hk
      simp only [decide_eq_true_eq] at hk
      rw [ih, Mem.lookup, if_pos (by omega)]
    · rfl

theorem Mem.lookup_append_map (l : List Nat) (f : Nat → Byte) (m : List Host.Cell) (a : Nat)
    (hl : l.Pairwise (· < ·)) :
    Mem.lookup (l.map (fun k => (k, f k)) ++ m) a =
      if a ∈ l then some (f a) else if ∃ k ∈ l, a < k then none else Mem.lookup m a := by
  induction l with
  | nil => simp
  | cons k l ih =>
    rw [List.pairwise_cons] at hl
    simp only [List.map_cons, List.cons_append, Mem.lookup, ih hl.2]
    by_cases h1 : k < a
    · have : ¬ a < k := by omega
      have : a ≠ k := by omega
      simp [*]
    · by_cases h2 : k = a
      · subst k; simp
      · have h3 : a < k := by omega
        have h4 : a ∉ l := fun hm => by have := hl.1 a hm; omega
        have h5 : a ≠ k := by omega
        simp [h1, h2, h3, h4, h5]

/-- `Mem.fill` read back. -/
theorem Mem.lookup_fill (m : List Host.Cell) (n : Nat) (f : Nat → Byte) (a : Nat) :
    Mem.lookup (Mem.fill m n f) a = if a < n then some (f a) else Mem.lookup m a := by
  unfold Mem.fill
  rw [Mem.lookup_append_map _ _ _ _ List.pairwise_lt_range]
  by_cases h : a < n
  · simp [h]
  · have : ¬ ∃ k ∈ List.range n, a < k := by
      rintro ⟨k, hk, hak⟩
      have := List.mem_range.mp hk
      omega
    rw [if_neg this]
    simp [h, Mem.lookup_dropWhile m n a (by omega)]

theorem dropWhile_dropWhile_lt (m : List Host.Cell) {a b : Nat} (h : a ≤ b) :
    ((m.dropWhile fun c => c.1 < a).dropWhile fun c => c.1 < b) =
      m.dropWhile fun c => c.1 < b := by
  induction m with
  | nil => rfl
  | cons c m ih =>
    simp only [List.dropWhile_cons]
    by_cases h1 : c.1 < a
    · simp [h1, show c.1 < b by omega, ih]
    · simp [h1, List.dropWhile_cons]

/-- The ascending walk reads what byte-by-byte reading reads. -/
theorem Mem.run_eq (m : List Host.Cell) (a n : Nat) :
    Mem.run m a n =
      (List.range' a n).map fun k => (Mem.lookup m k).getD (Config.fbInit k) := by
  suffices ∀ (k : Nat), k ≤ a → Mem.run (m.dropWhile fun c => c.1 < k) a n =
      (List.range' a n).map fun k => (Mem.lookup m k).getD (Config.fbInit k) by
    have h := this 0 (by omega)
    have h0 : m.dropWhile (fun c => decide (c.1 < 0)) = m := by
      cases m <;> simp
    rwa [h0] at h
  induction n generalizing a with
  | zero => intro k _; simp [Mem.run]
  | succ n ih =>
    intro k hk
    rw [Mem.run, dropWhile_dropWhile_lt m hk, Mem.lookup_dropWhile m a a (le_refl a),
      List.range'_succ, List.map_cons, ih (a + 1) a (by omega)]

@[simp] theorem Mem.run_length (m : List Host.Cell) (a n : Nat) : (Mem.run m a n).length = n := by
  simp [Mem.run_eq]

/-- `MemRead` byte by byte. -/
theorem State.fbRead_eq (s : State) (a n : Nat) :
    s.fbRead a n = (List.range' a n).map s.fbByte := Mem.run_eq s.fb a n

/-! ## Canonical form -/

theorem Mem.write_keys (m : List Host.Cell) (a : Nat) (b : Byte) (c : Host.Cell)
    (h : c ∈ Mem.write m a b) : c = (a, b) ∨ c ∈ m := by
  induction m with
  | nil => simpa [Mem.write] using h
  | cons kv m ih =>
    obtain ⟨k, v⟩ := kv
    unfold Mem.write at h
    split at h
    · rcases List.mem_cons.mp h with h | h
      · simp [h]
      · rcases ih h with h | h <;> simp [h]
    · split at h
      · rcases List.mem_cons.mp h with h | h <;> simp [h]
      · rcases List.mem_cons.mp h with h | h
        · simp [h]
        · exact .inr h

theorem Mem.wf_write (m : List Host.Cell) (a : Nat) (b : Byte) (h : Mem.wf m) :
    Mem.wf (Mem.write m a b) := by
  induction m with
  | nil => simp [Mem.write, Mem.wf]
  | cons kv m ih =>
    obtain ⟨k, v⟩ := kv
    simp only [Mem.wf, List.map_cons, List.pairwise_cons, List.mem_map] at h
    unfold Mem.write
    split
    · simp only [Mem.wf, List.map_cons, List.pairwise_cons, List.mem_map]
      refine ⟨?_, ih h.2⟩
      rintro x ⟨c, hc, rfl⟩
      rcases Mem.write_keys m a b c hc with rfl | hc
      · assumption
      · exact h.1 _ ⟨c, hc, rfl⟩
    · split
      · subst k
        simpa only [Mem.wf, List.map_cons, List.pairwise_cons, List.mem_map] using h
      · simp only [Mem.wf, List.map_cons, List.pairwise_cons, List.mem_cons, List.mem_map]
        refine ⟨?_, h⟩
        rintro x (rfl | ⟨c, hc, rfl⟩)
        · omega
        · have := h.1 _ ⟨c, hc, rfl⟩
          omega

theorem Mem.wf_writes (m : List Host.Cell) (a : Nat) (bs : List Byte) (h : Mem.wf m) :
    Mem.wf (Mem.writes m a bs) := by
  induction bs generalizing m a with
  | nil => exact h
  | cons b bs ih => exact ih _ _ (Mem.wf_write m a b h)

theorem Mem.writes_keys (m : List Host.Cell) (a : Nat) (bs : List Byte) (c : Host.Cell)
    (h : c ∈ Mem.writes m a bs) : (a ≤ c.1 ∧ c.1 < a + bs.length) ∨ c ∈ m := by
  induction bs generalizing m a with
  | nil => exact .inr h
  | cons b bs ih =>
    rcases ih _ _ h with h | h
    · left; simp only [List.length_cons]; omega
    · rcases Mem.write_keys m a b c h with rfl | h
      · left; simp
      · exact .inr h

theorem Mem.dropWhile_keys (m : List Host.Cell) (n : Nat) (h : Mem.wf m) (c : Host.Cell)
    (hc : c ∈ m.dropWhile fun c => c.1 < n) : n ≤ c.1 := by
  induction m with
  | nil => simp at hc
  | cons kv m ih =>
    simp only [Mem.wf, List.map_cons, List.pairwise_cons, List.mem_map] at h
    rw [List.dropWhile_cons] at hc
    split at hc
    · exact ih h.2 hc
    · rename_i hk
      simp only [decide_eq_true_eq] at hk
      rcases List.mem_cons.mp hc with rfl | hc
      · omega
      · have := h.1 _ ⟨c, hc, rfl⟩
        omega

theorem Mem.wf_fill (m : List Host.Cell) (n : Nat) (f : Nat → Byte) (h : Mem.wf m) :
    Mem.wf (Mem.fill m n f) := by
  unfold Mem.fill Mem.wf
  rw [List.map_append, List.map_map, List.pairwise_append]
  refine ⟨?_, ?_, ?_⟩
  · have : (Prod.fst ∘ fun a => (a, f a)) = (id : Nat → Nat) := rfl
    rw [this, List.map_id]
    exact List.pairwise_lt_range
  · exact List.Pairwise.sublist ((List.dropWhile_sublist _).map Prod.fst) h
  · intro x hx y hy
    simp only [List.mem_map, List.mem_range, Function.comp] at hx hy
    obtain ⟨a, ha, rfl⟩ := hx
    obtain ⟨c, hc, rfl⟩ := hy
    have := Mem.dropWhile_keys m n h c hc
    omega

theorem Mem.fill_keys (m : List Host.Cell) (n : Nat) (f : Nat → Byte) (c : Host.Cell)
    (h : c ∈ Mem.fill m n f) : c.1 < n ∨ c ∈ m := by
  rcases List.mem_append.mp h with h | h
  · obtain ⟨a, ha, rfl⟩ := List.mem_map.mp h
    exact .inl (List.mem_range.mp ha)
  · exact .inr ((List.dropWhile_sublist _).subset h)

/-- The reset state's storage is canonical: it lists nothing. -/
theorem Mem.wf_reset : Mem.wf State.reset.fb := List.Pairwise.nil

/-- Below every listed address nothing is listed. -/
theorem Mem.lookup_none_of_lt (m : List Host.Cell) (a : Nat)
    (h : ∀ c ∈ m, a < c.1) : Mem.lookup m a = none := by
  cases m with
  | nil => rfl
  | cons c m =>
    have := h c (by simp)
    obtain ⟨k, v⟩ := c
    simp only [Mem.lookup]
    rw [if_neg (by simp at this; omega), if_neg (by simp at this; omega)]

/-- A canonical memory is determined by what it reads: equal memories are equal data. -/
theorem Mem.ext_of_lookup {m n : List Host.Cell} (hm : Mem.wf m) (hn : Mem.wf n)
    (h : ∀ a, Mem.lookup m a = Mem.lookup n a) : m = n := by
  induction m generalizing n with
  | nil =>
    cases n with
    | nil => rfl
    | cons c n =>
      have := h c.1
      simp [Mem.lookup] at this
  | cons c m ih =>
    obtain ⟨k, v⟩ := c
    simp only [Mem.wf, List.map_cons, List.pairwise_cons, List.mem_map] at hm
    cases n with
    | nil =>
      have := h k
      simp [Mem.lookup] at this
    | cons d n =>
      obtain ⟨l, w⟩ := d
      simp only [Mem.wf, List.map_cons, List.pairwise_cons, List.mem_map] at hn
      have hmk : ∀ c ∈ m, k < c.1 := fun c hc => hm.1 _ ⟨c, hc, rfl⟩
      have hnl : ∀ c ∈ n, l < c.1 := fun c hc => hn.1 _ ⟨c, hc, rfl⟩
      have hkl : k = l := by
        rcases Nat.lt_trichotomy k l with hlt | heq | hgt
        · have := h k
          simp only [Mem.lookup, lt_irrefl, if_false, if_true] at this
          rw [if_neg (by omega), if_neg (by omega)] at this
          simp at this
        · exact heq
        · have := h l
          simp only [Mem.lookup, lt_irrefl, if_false, if_true] at this
          rw [if_neg (by omega), if_neg (by omega)] at this
          simp at this
      subst hkl
      have hv : v = w := by
        have := h k
        simpa [Mem.lookup] using this
      subst hv
      rw [ih hm.2 hn.2 fun a => ?_]
      rcases Nat.lt_trichotomy a k with hlt | rfl | hgt
      · rw [Mem.lookup_none_of_lt m a fun c hc => Nat.lt_trans hlt (hmk c hc),
          Mem.lookup_none_of_lt n a fun c hc => Nat.lt_trans hlt (hnl c hc)]
      · rw [Mem.lookup_none_of_lt m a hmk, Mem.lookup_none_of_lt n a hnl]
      · have := h a
        simpa [Mem.lookup, hgt] using this

/-! ## Addresses -/

/-- On the panel an address is in the frame buffer (20_memory.md R61). -/
theorem fbAddr_lt {p : Params} {x y c : Nat} (hx : x < p.width) (hy : y < p.height) (hc : c < 3) :
    fbAddr p.width x y c < p.fbSize := by
  unfold fbAddr Params.fbSize
  have : y * p.width + x < p.width * p.height := by
    have := Nat.mul_le_mul_right p.width (show y + 1 ≤ p.height by omega)
    rw [Nat.add_mul, Nat.mul_comm p.height] at this
    omega
  rw [Nat.mul_assoc]
  omega

theorem fbAddr_mod (w x y c : Nat) (hc : c < 3) : fbAddr w x y c % 3 = c := by
  unfold fbAddr; omega

end Sys2Proof.Machine
end

