-- ==== Sys2Proof/Laws/Send.lean ====
section
/-! SUPPORT. What the shared operations do: window tracking, the send primitive, the reset pulse, the
sequencer and the window sequence, with every answer of the bus agent. -/

namespace Sys2Proof.Machine

/-! ## Events and answers -/

theorem xferCount_append (t u : List Event) : xferCount (t ++ u) = xferCount t + xferCount u := by
  induction t with
  | nil => simp [xferCount]
  | cons e t ih => cases e <;> simp only [List.cons_append, xferCount, ih]; omega

theorem xferCount_map_xfer (cs : List (List Byte)) : xferCount (cs.map .xfer) = cs.length := by
  induction cs with
  | nil => rfl
  | cons c cs ih => simp [xferCount, ih]

theorem lastDc_append (d : Option Level) (t u : List Event) :
    lastDc d (t ++ u) = lastDc (lastDc d t) u := by
  induction t generalizing d with
  | nil => rfl
  | cons e t ih => cases e <;> simp [lastDc, ih]

theorem lastRst_append (d : Option Level) (t u : List Event) :
    lastRst d (t ++ u) = lastRst (lastRst d t) u := by
  induction t generalizing d with
  | nil => rfl
  | cons e t ih => cases e <;> simp [lastRst, ih]

theorem lastDc_map_xfer (d : Option Level) (cs : List (List Byte)) :
    lastDc d (cs.map .xfer) = d := by
  induction cs with
  | nil => rfl
  | cons c cs ih => simpa [lastDc] using ih

theorem lastRst_map_xfer (d : Option Level) (cs : List (List Byte)) :
    lastRst d (cs.map .xfer) = d := by
  induction cs with
  | nil => rfl
  | cons c cs ih => simpa [lastRst] using ih

theorem xferCount_sendEvents (bs : List Byte) (d : Bool) (c : Nat) :
    xferCount (sendEvents bs d c) = (chunks c bs).length := by
  simp [sendEvents, xferCount, xferCount_map_xfer]

/-- Nothing performed changes nothing. -/
@[simp] theorem State.performs_nil (s : State) : s.performs [] = s := by
  simp [State.performs, xferCount]

/-- Events performed one list after the other. -/
theorem State.performs_performs (s : State) (t u : List Event) :
    (s.performs t).performs u = s.performs (t ++ u) := by
  simp [State.performs, xferCount_append, List.append_assoc, Nat.add_assoc]

/-- The `k`-th answer after `n` answers have been taken is answer `n + k`. -/
theorem answer_performs (s : State) (evs : List Event) (k : Nat) :
    (s.performs evs).answer k = s.answer (xferCount evs + k) := by
  simp [State.answer, State.performs, List.getD_eq_getElem?_getD, List.getElem?_drop,
    Nat.add_assoc]

theorem BusOk.mono {s : State} {m n : Nat} (h : BusOk s n) (hmn : m ≤ n) : BusOk s m :=
  fun k hk => h k (by omega)

theorem BusOk.performs {s : State} {evs : List Event} {n : Nat}
    (h : BusOk s (xferCount evs + n)) : BusOk (s.performs evs) n :=
  fun k hk => by rw [answer_performs]; exact h _ (by omega)

/-- Whether an answer is ok depends only on the answers and their count. -/
theorem answer_congr {s t : State} (h1 : t.answers = s.answers) (h2 : t.xfers = s.xfers) (k : Nat) :
    t.answer k = s.answer k := by simp [State.answer, h1, h2]

theorem BusOk.congr {s t : State} {n : Nat} (h : BusOk s n) (h1 : t.answers = s.answers)
    (h2 : t.xfers = s.xfers) : BusOk t n :=
  fun k hk => by rw [answer_congr h1 h2]; exact h k hk

/-! ## Tracking (41_bus_framer.md R148, R149) -/

theorem State.trackCmd_eq (s : State) :
    s.trackCmd = { s with win := .none, haz := hazAfterCmd s.win s.haz } := by
  unfold State.trackCmd
  split
  · rename_i rem h
    cases rem <;> simp [State.setWin, State.raiseHaz, hazAfterCmd, h, hazUnderrun]
  · simp [State.setWin, hazAfterCmd, *]
  · simp [State.setWin, hazAfterCmd, *]

theorem State.trackData_eq (s : State) (n : Nat) :
    s.trackData n = { s with win := winAfterData n s.win, haz := hazAfterData n s.win s.haz } := by
  unfold State.trackData
  split
  · cases s; simp_all [winAfterData, hazAfterData]
  · rename_i rem h
    simp only [h, winAfterData, hazAfterData]
    split <;> simp [State.setWin, State.raiseHaz, hazOverrun]
  · rename_i h
    simp only [h, winAfterData, hazAfterData, gt_iff_lt]
    split
    · cases s; simp_all [State.raiseHaz, hazUnknownPos]
    · cases s; simp_all

/-- The window tracker after the tracking of a send. -/
def winAfter (isData : Bool) (n : Nat) (w : Window) : Window :=
  if isData then winAfterData n w else .none

/-- The hazard register after the tracking of a send. -/
def hazAfter (isData : Bool) (n : Nat) (w : Window) (h : BitVec 3) : BitVec 3 :=
  if isData then hazAfterData n w h else hazAfterCmd w h

/-- What every send does before its first transaction. -/
theorem send_prologue (s : State) (isData : Bool) (n : Nat) :
    (s.driveDc isData).track isData n =
      { s.performs [.dc (dcLevel isData)] with
        dc := some (dcLevel isData)
        win := winAfter isData n s.win
        haz := hazAfter isData n s.win s.haz } := by
  cases isData <;>
    simp [State.track, State.trackData_eq, State.trackCmd_eq, State.driveDc, State.emit, dcLevel,
      State.performs, xferCount, winAfter, hazAfter]

/-- Tracking opens no window. -/
theorem winAfter_opened {isData : Bool} {n r : Nat} {w : Window}
    (h : winAfter isData n w = .opened r) : ∃ q, w = .opened q ∧ r ≤ q := by
  unfold winAfter winAfterData at h
  split at h
  · split at h
    · simp at h
    · rename_i rem
      split at h
      · exact ⟨rem, rfl, by have := Window.opened.inj h; omega⟩
      · simp at h
    · simp at h
  · simp at h

/-- Tracking clears no hazard bit (10_state.md R42). -/
theorem hazAfter_mono (isData : Bool) (n : Nat) (w : Window) (h : BitVec 3) :
    h &&& hazAfter isData n w h = h := by
  have key : ∀ m : BitVec 3, h &&& (h ||| m) = h := by
    intro m; revert h m; decide
  unfold hazAfter hazAfterData hazAfterCmd
  cases isData
  · rcases w with _ | (_ | _) | _ <;> simp [key]
  · rcases w with _ | rem | _
    · simp
    · simp only [if_true]; split <;> simp [key]
    · simp only [if_true]; split <;> simp [key]

/-! ## Flow -/

@[simp] theorem Flow.bind_go (s : State) (k : State → Flow) : (Flow.go s).bind k = k s := rfl
@[simp] theorem Flow.bind_stop (e : Status) (s : State) (k : State → Flow) :
    (Flow.stop e s).bind k = .stop e s := rfl
@[simp] theorem Flow.state_go (s : State) : (Flow.go s).state = s := rfl
@[simp] theorem Flow.state_stop (e : Status) (s : State) : (Flow.stop e s).state = s := rfl
@[simp] theorem Flow.response_go (v : U64) (s : State) : (Flow.go s).response v = ⟨.ok, v⟩ := rfl
@[simp] theorem Flow.response_stop (v : U64) (e : Status) (s : State) :
    (Flow.stop e s).response v = ⟨e, 0⟩ := rfl

theorem start_live {s : State} (h : s.dead = false) : start s = .go s := by simp [start, h]
theorem start_dead {s : State} (h : s.dead = true) : start s = .stop .configError s := by
  simp [start, h, raise]

@[simp] theorem require_true (e : Status) (s : State) : require true e s = .go s := rfl
@[simp] theorem require_false (e : Status) (s : State) : require false e s = .stop e s := rfl

/-- An operation that ends with no effect but its response. -/
theorem finish_stop (n : Nat) (v : U64) (e : Status) (s : State) :
    finish n v (.stop e s) = s.responds n e 0 := rfl

theorem finish_go (n : Nat) (v : U64) (s : State) : finish n v (.go s) = s.responds n .ok v := rfl

/-! ## What a stretch of pseudocode that reaches the bus can do -/

/-- Everything such a stretch can do from `s`, ending in `f` after the events `evs`: nothing but the
lines, the window, the hazards, the lifecycle and the step index changes besides the events; every
transaction carries at most `bound` bytes and was answered ok, but the last one of a stretch that ended
in TRANSPORT_ERROR; a window open at the end was open at the start with no fewer bytes due, or was
opened with at most `lim`. -/
structure Reaches (bound : Nat) (lim : Option Nat) (s : State) (f : Flow) (evs : List Event) :
    Prop where
  frame : f.state = { s.performs evs with
    dc := f.state.dc, rst := f.state.rst, lc := f.state.lc, seqIdx := f.state.seqIdx,
    win := f.state.win, haz := f.state.haz }
  dc : f.state.dc = lastDc s.dc evs
  rst : f.state.rst = lastRst s.rst evs
  haz : s.haz &&& f.state.haz = s.haz
  win : ∀ r, f.state.win = .opened r →
    (∃ q, s.win = .opened q ∧ r ≤ q) ∨ ∃ q, lim = some q ∧ r ≤ q
  size : ∀ bs, Event.xfer bs ∈ evs → 1 ≤ bs.length ∧ bs.length ≤ bound
  ok : ∀ t, f = .go t → BusOk s (xferCount evs)
  err : ∀ e t, f = .stop e t → e = .transportError ∧ t.win = .unknown ∧
    (∃ k, xferCount evs = k + 1 ∧ BusErrAt s k) ∧ ∃ pre bs, evs = pre ++ [.xfer bs]

theorem haz_mono_trans {a b c : BitVec 3} (h1 : a &&& b = a) (h2 : b &&& c = b) : a &&& c = a := by
  revert a b c; decide

/-- One stretch after another. -/
theorem Reaches.bind {n : Nat} {l : Option Nat} {s : State} {f : Flow} {evs : List Event} {k : State → Flow}
    (h : Reaches n l s f evs)
    (hk : ∀ t, f = .go t → ∃ evs', Reaches n l t (k t) evs') :
    ∃ evs', Reaches n l s (f.bind k) (evs ++ evs') := by
  cases f with
  | stop e t => exact ⟨[], by simpa using h⟩
  | go t =>
    obtain ⟨evs', h'⟩ := hk t rfl
    refine ⟨evs', ?_⟩
    have hf : t = { s.performs evs with
        dc := t.dc, rst := t.rst, lc := t.lc, seqIdx := t.seqIdx, win := t.win, haz := t.haz } :=
      h.frame
    have ht1 : t.answers = (s.performs evs).answers := by rw [hf]
    have ht2 : t.xfers = (s.performs evs).xfers := by rw [hf]
    have hans : ∀ j, t.answer j = s.answer (xferCount evs + j) := fun j => by
      rw [answer_congr ht1 ht2, answer_performs]
    have hok := h.ok t rfl
    have hcat : ∀ j, BusOk t j → BusOk s (xferCount evs + j) := by
      intro j hj i hi
      by_cases hlt : i < xferCount evs
      · exact hok i hlt
      · have := hj (i - xferCount evs) (by omega)
        rwa [hans, show xferCount evs + (i - xferCount evs) = i by omega] at this
    refine ⟨?_, ?_, ?_, ?_, ?_, ?_, ?_, ?_⟩
    · have h2 := h'.frame
      simp only [Flow.bind_go]
      refine h2.trans ?_
      rw [← State.performs_performs, hf]
      simp only [State.performs]
    · simp only [Flow.bind_go, h'.dc, lastDc_append]
      rw [show t.dc = _ from h.dc]
    · simp only [Flow.bind_go, h'.rst, lastRst_append]
      rw [show t.rst = _ from h.rst]
    · exact haz_mono_trans h.haz h'.haz
    · intro r hr
      rcases h'.win r hr with ⟨q, hq, hrq⟩ | h
      · rcases h.win q hq with ⟨p, hp, hqp⟩ | ⟨p, hp, hqp⟩
        · exact .inl ⟨p, hp, hrq.trans hqp⟩
        · exact .inr ⟨p, hp, hrq.trans hqp⟩
      · exact .inr h
    · intro bs hb
      rcases List.mem_append.mp hb with hb | hb
      · exact h.size bs hb
      · exact h'.size bs hb
    · intro u hu
      rw [xferCount_append]
      exact hcat _ (h'.ok u hu)
    · intro e u hu
      obtain ⟨h1, h2, ⟨j, hj, hj'⟩, pre, bs, hpre⟩ := h'.err e u hu
      refine ⟨h1, h2, ⟨xferCount evs + j, ?_, hcat j hj'.1, ?_⟩, evs ++ pre, bs, ?_⟩
      · rw [xferCount_append, hj]; omega
      · rw [← hans]; exact hj'.2
      · rw [hpre, List.append_assoc]

/-- A change of the lifecycle or the step index is a stretch of no event. -/
theorem Reaches.quiet (n : Nat) (l : Option Nat) (s t : State)
    (h : t = { s with lc := t.lc, seqIdx := t.seqIdx }) : Reaches n l s (.go t) [] where
  frame := by
    have h1 : t.dc = s.dc := by rw [h]
    have h2 : t.haz = s.haz := by rw [h]
    have h3 : t.rst = s.rst := by rw [h]
    have h4 : t.win = s.win := by rw [h]
    rw [State.performs_nil, Flow.state_go, h1, h2, h3, h4]
    exact h
  dc := by rw [Flow.state_go, h]; rfl
  rst := by rw [Flow.state_go, h]; rfl
  haz := by rw [Flow.state_go, h]; exact BitVec.and_self
  win := fun r hr => by
    rw [Flow.state_go, h] at hr
    exact .inl ⟨r, hr, le_rfl⟩
  size := by simp
  ok := fun _ _ k hk => absurd hk (by simp [xferCount])
  err := by simp

/-- Opening a window. -/
theorem Reaches.opens (n : Nat) (s : State) (q : Nat) :
    Reaches n (some q) s (.go (s.setWin (.opened q))) [] where
  frame := by rw [State.performs_nil]; rfl
  dc := rfl
  rst := rfl
  haz := BitVec.and_self
  win := fun r hr => .inr ⟨q, rfl, by have := Window.opened.inj hr; omega⟩
  size := by simp
  ok := fun _ _ k hk => absurd hk (by simp [xferCount])
  err := by simp

/-! ## The send primitive (41_bus_framer.md R140 to R145) -/

/-- One transaction. -/
theorem transact_reaches {n : Nat} {l : Option Nat} (bs : List Byte) (s : State)
    (hb : 1 ≤ bs.length ∧ bs.length ≤ n) : Reaches n l s (transact bs s) [.xfer bs] := by
  unfold transact raise
  split
  · rename_i h
    refine ⟨?_, rfl, rfl, BitVec.and_self, fun r hr => .inl ⟨r, hr, le_rfl⟩, ?_, ?_, ?_⟩
    · simp [State.performs, State.emit, State.takeAnswer, xferCount]
    · intro bs' hbs'
      have : bs' = bs := by simpa using hbs'
      exact this ▸ hb
    · intro t _ k hk
      have : k = 0 := by simp [xferCount] at hk; omega
      exact this ▸ h
    · simp
  · rename_i h
    refine ⟨?_, rfl, rfl, BitVec.and_self, fun r hr => by simp at hr, ?_, ?_, ?_⟩
    · simp [State.performs, State.emit, State.takeAnswer, State.setWin, xferCount]
    · intro bs' hbs'
      have : bs' = bs := by simpa using hbs'
      exact this ▸ hb
    · simp
    · intro e t ht
      obtain ⟨rfl, rfl⟩ := Flow.stop.inj ht
      exact ⟨rfl, rfl, ⟨0, rfl, fun k hk => absurd hk (by omega), h⟩, [], bs, rfl⟩

theorem Reaches.mono {m n : Nat} {l : Option Nat} {s : State} {f : Flow} {evs : List Event}
    (h : Reaches m l s f evs) (hmn : m ≤ n) : Reaches n l s f evs :=
  ⟨h.frame, h.dc, h.rst, h.haz, h.win, fun bs hb => ⟨(h.size bs hb).1, (h.size bs hb).2.trans hmn⟩,
    h.ok, h.err⟩

theorem sendChunks_reaches {n : Nat} (l : Option Nat) (cs : List (List Byte)) (s : State)
    (hc : ∀ c ∈ cs, 1 ≤ c.length ∧ c.length ≤ n) :
    ∃ evs, Reaches n l s (sendChunks cs s) evs := by
  induction cs generalizing s with
  | nil => exact ⟨[], Reaches.quiet n l s s rfl⟩
  | cons c cs ih =>
    obtain ⟨evs, h⟩ := (transact_reaches c s (hc c (by simp))).bind (k := sendChunks cs)
      fun t _ => ih t fun c' hc' => hc c' (by simp [hc'])
    exact ⟨_, h⟩

/-- Everything a send can do. -/
theorem send_reaches (l : Option Nat) (bs : List Byte) (isData : Bool) {c : Nat} (hc : 1 ≤ c) (s : State) :
    ∃ evs, Reaches c l s (send bs isData c s) evs := by
  unfold send
  rw [send_prologue]
  have h0 : Reaches c l s (.go { s.performs [.dc (dcLevel isData)] with
      dc := some (dcLevel isData)
      win := winAfter isData bs.length s.win
      haz := hazAfter isData bs.length s.win s.haz }) [.dc (dcLevel isData)] := by
    refine ⟨rfl, rfl, rfl, hazAfter_mono _ _ _ _, ?_, ?_, ?_, ?_⟩
    · intro r hr
      exact .inl (winAfter_opened hr)
    · simp
    · intro t _ k hk; simp [xferCount] at hk
    · simp
  obtain ⟨evs, h⟩ := h0.bind (k := sendChunks (chunks c bs)) fun t _ =>
    sendChunks_reaches l (chunks c bs) t (chunks_size hc bs)
  exact ⟨_, h⟩

/-- The loop with every answer ok. -/
theorem sendChunks_ok (cs : List (List Byte)) (s : State) (h : BusOk s cs.length) :
    sendChunks cs s = .go (s.performs (cs.map .xfer)) := by
  induction cs generalizing s with
  | nil => simp [sendChunks]
  | cons c cs ih =>
    have h0 : s.answer 0 = .ok := h 0 (by simp)
    have h1 : (s.emit (.xfer c)).takeAnswer = s.performs [.xfer c] := rfl
    have h2 : BusOk (s.performs [.xfer c]) cs.length :=
      BusOk.performs (by simpa [xferCount, Nat.add_comm] using h)
    rw [sendChunks, transact, h0]
    simp only [Flow.bind_go]
    rw [h1, ih _ h2, State.performs_performs]
    rfl

/-- The loop with the first err at chunk `k` (R144): that chunk is emitted, no later one is. -/
theorem sendChunks_err (cs : List (List Byte)) (s : State) (k : Nat) (hk : k < cs.length)
    (h : BusErrAt s k) :
    sendChunks cs s = .stop .transportError
      ((s.performs ((cs.take (k + 1)).map .xfer)).setWin .unknown) := by
  induction cs generalizing s k with
  | nil => simp at hk
  | cons c cs ih =>
    have h1 : (s.emit (.xfer c)).takeAnswer = s.performs [.xfer c] := rfl
    rw [sendChunks, transact]
    cases k with
    | zero =>
      rw [h.2]
      simp only [raise, Flow.bind_stop, h1]
      simp
    | succ k =>
      rw [h.1 0 (by omega)]
      simp only [Flow.bind_go, h1]
      have h2 : BusErrAt (s.performs [.xfer c]) k := by
        refine ⟨BusOk.performs (by simpa [xferCount, Nat.add_comm] using h.1), ?_⟩
        rw [answer_performs]
        simpa [xferCount, Nat.add_comm] using h.2
      rw [ih _ k (by simpa using hk) h2, State.performs_performs]
      simp

/-- A send with every answer ok (R140, R142). -/
theorem send_ok (bs : List Byte) (isData : Bool) (c : Nat) (s : State)
    (h : BusOk s (chunks c bs).length) :
    send bs isData c s = .go { s.performs (sendEvents bs isData c) with
      dc := some (dcLevel isData)
      win := winAfter isData bs.length s.win
      haz := hazAfter isData bs.length s.win s.haz } := by
  unfold send
  rw [send_prologue, sendChunks_ok _ _ (BusOk.congr (s := s) h (by simp [xferCount])
    (by simp [xferCount]))]
  simp [State.performs, sendEvents, xferCount, xferCount_map_xfer]

/-- A send with the first err at chunk `k` (R144). -/
theorem send_err (bs : List Byte) (isData : Bool) (c : Nat) (s : State) (k : Nat)
    (hk : k < (chunks c bs).length) (h : BusErrAt s k) :
    send bs isData c s = .stop .transportError
      { s.performs (.dc (dcLevel isData) :: ((chunks c bs).take (k + 1)).map .xfer) with
        dc := some (dcLevel isData)
        win := .unknown
        haz := hazAfter isData bs.length s.win s.haz } := by
  unfold send
  rw [send_prologue, sendChunks_err _ _ k hk]
  · simp [State.performs, State.setWin, xferCount]
  · refine ⟨BusOk.congr (s := s) h.1 (by simp [xferCount]) (by simp [xferCount]), ?_⟩
    rw [answer_congr (s := s) (by simp [xferCount]) (by simp [xferCount])]
    exact h.2

/-- A command byte with its answer ok. -/
theorem send_cmd_ok (c : Byte) (s : State) (h : BusOk s 1) :
    send [c] false 64 s = .go { s.performs [.dc .low, .xfer [c]] with
      dc := some .low
      win := .none
      haz := hazAfterCmd s.win s.haz } := by
  rw [send_ok _ _ _ _ (by rw [chunks_single _ (by simp) (by simp)]; exact h)]
  simp [sendEvents, chunks_single, dcLevel, winAfter, hazAfter]

/-- Command parameters with their answer ok: outside a window nothing is tracked. -/
theorem send_params_ok (d : List Byte) (s : State) (hw : s.win = .none)
    (h : BusOk s (chunks 64 d).length) :
    send d true 64 s = .go { s.performs (sendEvents d true 64) with dc := some .high } := by
  rw [send_ok _ _ _ _ h]
  cases s
  simp_all [winAfter, hazAfter, winAfterData, hazAfterData, dcLevel, State.performs]

/-! ## The reset pulse (41_bus_framer.md R150) -/

theorem resetPulse_eq (s : State) : s.resetPulse = { s.performs (pulseEvents s.cfg) with
    rst := if s.cfg.hasRst then some .high else s.rst
    win := if s.cfg.hasRst then .none else s.win } := by
  unfold State.resetPulse pulseEvents
  split
  · simp [State.driveRst, State.emit, State.setWin, State.performs, xferCount, pulseHighMs,
      pulseLowMs, pulseSettleMs]
  · simp

theorem resetPulse_reaches (n : Nat) (l : Option Nat) (s : State) :
    Reaches n l s (.go s.resetPulse) (pulseEvents s.cfg) := by
  rw [resetPulse_eq]
  unfold pulseEvents
  split
  · refine ⟨rfl, rfl, rfl, BitVec.and_self, fun r hr => by simp at hr, by simp, ?_, by simp⟩
    intro t _ k hk
    simp [xferCount] at hk
  · refine ⟨rfl, rfl, rfl, BitVec.and_self, fun r hr => .inl ⟨r, hr, le_rfl⟩, by simp, ?_, by simp⟩
    intro t _ k hk
    simp [xferCount] at hk

/-! ## The sequencer (42_register_protocol.md R163, R164) -/

theorem issueEntry_reaches (l : Option Nat) (e : InitRecord) (s : State) :
    ∃ evs, Reaches 64 l s (issueEntry e s) evs := by
  cases e with
  | cmd c d =>
    obtain ⟨evs, h⟩ := send_reaches l [c] false (c := 64) (by omega) s
    obtain ⟨evs', h'⟩ := h.bind (k := fun s => if d = [] then .go s else send d true chunkDefault s)
      fun t _ => by
        split
        · exact ⟨[], Reaches.quiet 64 l t t rfl⟩
        · exact send_reaches l d true (c := 64) (by omega) t
    exact ⟨_, h'⟩
  | wait ms =>
    refine ⟨[.wait ms], rfl, rfl, rfl, BitVec.and_self, fun r hr => .inl ⟨r, hr, le_rfl⟩, by simp, ?_,
      by simp [issueEntry]⟩
    intro t _ k hk
    simp [xferCount] at hk

theorem issueAll_reaches (l : Option Nat) (es : List InitRecord) (s : State) :
    ∃ evs, Reaches 64 l s (issueAll es s) evs := by
  induction es generalizing s with
  | nil => exact ⟨[], Reaches.quiet 64 l s s rfl⟩
  | cons e es ih =>
    obtain ⟨evs, h⟩ := issueEntry_reaches l e s
    obtain ⟨evs', h'⟩ := h.bind (k := fun s => issueAll es (s.setSeqIdx (s.seqIdx + 1)))
      fun t _ => by
        obtain ⟨evs2, h2⟩ := ih (t.setSeqIdx (t.seqIdx + 1))
        obtain ⟨evs3, h3⟩ := (Reaches.quiet 64 l t (t.setSeqIdx (t.seqIdx + 1)) rfl).bind
          (k := issueAll es) fun u hu => by
            obtain rfl := (Flow.go.inj hu).symm
            exact ⟨evs2, h2⟩
        exact ⟨_, h3⟩
    exact ⟨_, h'⟩

theorem initSequence_reaches (l : Option Nat) (s : State) : ∃ evs, Reaches 64 l s (initSequence s) evs := by
  obtain ⟨e1, h1⟩ := (Reaches.quiet 64 l s (s.setSeqIdx 0) rfl).bind
    (k := fun t => issueAll (initTable s.cfg) t) fun t _ => issueAll_reaches l _ t
  obtain ⟨e2, h2⟩ := h1.bind (k := fun s => .go ((s.setLc .initialized).setLc .ready))
    fun t _ => ⟨[], Reaches.quiet 64 l t _ rfl⟩
  exact ⟨_, h2⟩

/-- One record with every answer ok. -/
theorem issueEntry_ok (e : InitRecord) (s : State) (h : BusOk s (xferCount (recordEvents e))) :
    issueEntry e s = .go { s.performs (recordEvents e) with
      dc := lastDc s.dc (recordEvents e)
      win := match e with | .cmd _ _ => .none | .wait _ => s.win
      haz := match e with | .cmd _ _ => hazAfterCmd s.win s.haz | .wait _ => s.haz } := by
  cases e with
  | wait ms => simp [issueEntry, recordEvents, State.emit, State.performs, xferCount, lastDc]
  | cmd c d =>
    simp only [issueEntry, recordEvents, chunkDefault] at h ⊢
    by_cases hd : d = []
    · subst hd
      rw [send_cmd_ok c s (by simpa [xferCount] using h)]
      simp [lastDc]
    · simp only [hd, if_false, xferCount_append, xferCount_sendEvents] at h ⊢
      rw [send_cmd_ok c s (h.mono (by simp [xferCount]))]
      simp only [Flow.bind_go]
      rw [send_params_ok d]
      rotate_left
      · rfl
      · exact BusOk.congr (s := s.performs [.dc .low, .xfer [c]]) (BusOk.performs h) rfl rfl
      rw [← State.performs_performs]
      simp only [lastDc_append, sendEvents, lastDc, lastDc_map_xfer, dcLevel]
      simp [State.performs]

/-- Whether a record is a command. -/
def recordIsCmd : InitRecord → Bool
  | .cmd _ _ => true
  | .wait _ => false

/-- The loop with every answer ok. -/
theorem issueAll_ok (es : List InitRecord) (s : State)
    (h : BusOk s (xferCount (es.flatMap recordEvents))) :
    issueAll es s = .go { s.performs (es.flatMap recordEvents) with
      dc := lastDc s.dc (es.flatMap recordEvents)
      seqIdx := s.seqIdx + es.length
      win := if es.any recordIsCmd then .none else s.win
      haz := if es.any recordIsCmd then hazAfterCmd s.win s.haz else s.haz } := by
  induction es generalizing s with
  | nil => simp [issueAll, lastDc]
  | cons e es ih =>
    simp only [List.flatMap_cons, xferCount_append] at h
    rw [issueAll, issueEntry_ok e s (h.mono (by omega))]
    simp only [Flow.bind_go]
    rw [ih]
    rotate_left
    · exact BusOk.congr (s := s.performs (recordEvents e)) (BusOk.performs h) rfl rfl
    cases e with
    | cmd c d =>
      simp only [List.flatMap_cons, lastDc_append, List.any_cons, recordIsCmd,
        ← State.performs_performs]
      simp only [State.performs, State.setSeqIdx, Bool.true_or, if_true, hazAfterCmd, ite_self,
        List.length_cons, Nat.add_assoc, Nat.add_comm 1]
    | wait ms =>
      simp only [List.flatMap_cons, lastDc_append, List.any_cons, recordIsCmd,
        ← State.performs_performs]
      simp [State.performs, State.setSeqIdx, Nat.add_assoc, Nat.add_comm 1]

/-- The initialization sequence with every answer ok (R164). -/
theorem initSequence_ok (s : State) (h : BusOk s (xferCount (initEvents s.cfg))) :
    initSequence s = .go { s.performs (initEvents s.cfg) with
      dc := some .low
      seqIdx := (initTable s.cfg).length
      lc := .ready
      win := .none
      haz := hazAfterCmd s.win s.haz } := by
  unfold initSequence
  rw [issueAll_ok]
  rotate_left
  · exact BusOk.congr (s := s) h rfl rfl
  have h1 : (initTable s.cfg).any recordIsCmd = true := by
    simp [initTable, initTail, recordIsCmd]
  have h2 : ∀ d, lastDc d ((initTable s.cfg).flatMap recordEvents) = some .low := by
    intro d
    simp [initTable, initTail, recordEvents, lastDc_append, lastDc]
  simp only [Flow.bind_go, h1, h2, if_true]
  simp [State.performs, State.setLc, State.setSeqIdx, initEvents]

/-! ## The window sequence (42_register_protocol.md R165, R169) -/

theorem windowSeq_reaches (x0 y0 x1 y1 : Nat) (s : State) :
    ∃ evs, Reaches 64 (some (windowBytes x0 y0 x1 y1)) s (windowSeq x0 y0 x1 y1 s) evs := by
  have step : ∀ {s : State} (bs : List Byte) (d : Bool) {k : State → Flow},
      (∀ t, ∃ evs, Reaches 64 (some (windowBytes x0 y0 x1 y1)) t (k t) evs) →
      ∃ evs, Reaches 64 (some (windowBytes x0 y0 x1 y1)) s ((send bs d chunkDefault s).bind k) evs := by
    intro s bs d k hk
    obtain ⟨e, h⟩ := send_reaches _ bs d (c := 64) (by omega) s
    obtain ⟨e', h'⟩ := h.bind (k := k) fun t _ => hk t
    exact ⟨_, h'⟩
  unfold windowSeq
  refine step _ _ fun t => step _ _ fun t => step _ _ fun t => step _ _ fun t => step _ _ fun t =>
    ⟨[], Reaches.opens 64 t _⟩

theorem xferCount_windowEvents (p : Params) (x0 y0 x1 y1 : Nat) :
    xferCount (windowEvents p x0 y0 x1 y1) = 5 := rfl

/-- The window sequence with every answer ok (R165): the ten events of 30_encoding.md R104, then the
window is open. -/
theorem windowSeq_ok (x0 y0 x1 y1 : Nat) (s : State) (h : BusOk s 5) :
    windowSeq x0 y0 x1 y1 s = .go { s.performs (windowEvents s.cfg x0 y0 x1 y1) with
      dc := some .low
      win := .opened (windowBytes x0 y0 x1 y1)
      haz := hazAfterCmd s.win s.haz } := by
  have ok1 : ∀ n, n + 1 ≤ 5 → ∀ t : State, t.answers = s.answers.drop n → t.xfers = s.xfers + n →
      BusOk t 1 := by
    intro n hn t h1 h2 k hk
    have : t.answer k = s.answer (n + k) := by
      simp [State.answer, h1, h2, List.getD_eq_getElem?_getD, List.getElem?_drop, Nat.add_assoc]
    rw [this]
    exact h _ (by omega)
  unfold windowSeq
  simp only [chunkDefault]
  rw [send_cmd_ok _ _ (h.mono (by omega)), Flow.bind_go,
    send_params_ok _ _ rfl (ok1 1 (by omega) _ rfl rfl), Flow.bind_go,
    send_cmd_ok _ _ (ok1 2 (by omega) _ (by simp [State.performs, xferCount, sendEvents,
      chunks_single]) (by simp [State.performs, xferCount, sendEvents, chunks_single])),
    Flow.bind_go,
    send_params_ok _ _ rfl (ok1 3 (by omega) _ (by simp [State.performs, xferCount, sendEvents,
      chunks_single]) (by simp [State.performs, xferCount, sendEvents, chunks_single])),
    Flow.bind_go,
    send_cmd_ok _ _ (ok1 4 (by omega) _ (by simp [State.performs, xferCount, sendEvents,
      chunks_single]) (by simp [State.performs, xferCount, sendEvents, chunks_single])),
    Flow.bind_go]
  simp [State.performs, xferCount, sendEvents, chunks_single, windowEvents, State.setWin,
    dcLevel, hazAfterCmd]

/-- The pixel send is a stretch like any other. -/
theorem sendImage_reaches (l : Option Nat) (img : List Byte) (s : State) :
    ∃ evs, Reaches 64 l s (sendImage img s) evs := send_reaches l _ true (c := 64) (by omega) s

end Sys2Proof.Machine
end

