-- ==== Sys2Proof/Laws/Exec.lean ====
section
/-! SUPPORT. Everything an operation can do, said once: `exec_effect`, and for a step `step_cases`. -/

namespace Sys2Proof.Machine

/-! ## Lifecycle and step index -/

theorem bind_keeps {α : Type} (p : State → α) (f : Flow) (k : State → Flow)
    (h : ∀ t, p (k t).state = p t) : p (f.bind k).state = p f.state := by
  cases f with
  | go t => exact h t
  | stop e t => rfl

theorem transact_lc (bs : List Byte) (s : State) : (transact bs s).state.lc = s.lc := by
  unfold transact; split <;> rfl

theorem transact_seqIdx (bs : List Byte) (s : State) :
    (transact bs s).state.seqIdx = s.seqIdx := by
  unfold transact; split <;> rfl

theorem sendChunks_lc (cs : List (List Byte)) (s : State) :
    (sendChunks cs s).state.lc = s.lc := by
  induction cs generalizing s with
  | nil => rfl
  | cons c cs ih =>
    rw [sendChunks, bind_keeps State.lc _ _ ih, transact_lc]

theorem sendChunks_seqIdx (cs : List (List Byte)) (s : State) :
    (sendChunks cs s).state.seqIdx = s.seqIdx := by
  induction cs generalizing s with
  | nil => rfl
  | cons c cs ih =>
    rw [sendChunks, bind_keeps State.seqIdx _ _ ih, transact_seqIdx]

theorem send_lc (bs : List Byte) (d : Bool) (c : Nat) (s : State) :
    (send bs d c s).state.lc = s.lc := by
  rw [send, sendChunks_lc, send_prologue]; rfl

theorem send_seqIdx (bs : List Byte) (d : Bool) (c : Nat) (s : State) :
    (send bs d c s).state.seqIdx = s.seqIdx := by
  rw [send, sendChunks_seqIdx, send_prologue]; rfl

theorem windowSeq_lc (x0 y0 x1 y1 : Nat) (s : State) :
    (windowSeq x0 y0 x1 y1 s).state.lc = s.lc := by
  unfold windowSeq
  repeat rw [bind_keeps State.lc _ _ fun _ => ?_, send_lc]
  all_goals rfl

theorem windowSeq_seqIdx (x0 y0 x1 y1 : Nat) (s : State) :
    (windowSeq x0 y0 x1 y1 s).state.seqIdx = s.seqIdx := by
  unfold windowSeq
  repeat rw [bind_keeps State.seqIdx _ _ fun _ => ?_, send_seqIdx]
  all_goals rfl

theorem issueEntry_lc (e : InitRecord) (s : State) : (issueEntry e s).state.lc = s.lc := by
  cases e with
  | wait ms => rfl
  | cmd c d =>
    rw [issueEntry, bind_keeps State.lc _ _ fun t => ?_, send_lc]
    split
    · rfl
    · exact send_lc _ _ _ _

theorem issueEntry_seqIdx (e : InitRecord) (s : State) :
    (issueEntry e s).state.seqIdx = s.seqIdx := by
  cases e with
  | wait ms => rfl
  | cmd c d =>
    rw [issueEntry, bind_keeps State.seqIdx _ _ fun t => ?_, send_seqIdx]
    split
    · rfl
    · exact send_seqIdx _ _ _ _

theorem issueAll_lc (es : List InitRecord) (s : State) : (issueAll es s).state.lc = s.lc := by
  induction es generalizing s with
  | nil => rfl
  | cons e es ih =>
    rw [issueAll, bind_keeps State.lc _ _ fun t => ?_, issueEntry_lc]
    exact ih _

/-- The step index never passes the number of entries (10_state.md R34). -/
theorem issueAll_seqIdx_le (es : List InitRecord) (s : State) :
    (issueAll es s).state.seqIdx ≤ s.seqIdx + es.length := by
  induction es generalizing s with
  | nil => exact le_rfl
  | cons e es ih =>
    rw [issueAll]
    have h1 := issueEntry_seqIdx e s
    cases h : issueEntry e s with
    | stop e' t =>
      rw [h] at h1
      simp only [Flow.state_stop] at h1
      simp [h1]
    | go t =>
      rw [h] at h1
      simp only [Flow.state_go] at h1
      have := ih (t.setSeqIdx (t.seqIdx + 1))
      simp only [State.setSeqIdx_seqIdx] at this
      simp only [Flow.bind_go, List.length_cons]
      omega

/-- The lifecycle after the initialization sequence: READY where it completed, unchanged where an error
ended it (42_register_protocol.md R164, 60_exceptions.md R219). -/
theorem initSequence_lc (s : State) :
    (∃ t, initSequence s = .go t ∧ t.lc = .ready) ∨
    ∃ e t, initSequence s = .stop e t ∧ t.lc = s.lc := by
  unfold initSequence
  have h := issueAll_lc (initTable s.cfg) (s.setSeqIdx 0)
  cases hi : issueAll (initTable s.cfg) (s.setSeqIdx 0) with
  | go t => exact .inl ⟨_, rfl, rfl⟩
  | stop e t =>
    rw [hi] at h
    exact .inr ⟨e, t, rfl, h⟩

theorem initSequence_seqIdx_le (s : State) :
    (initSequence s).state.seqIdx ≤ (initTable s.cfg).length := by
  unfold initSequence
  rw [bind_keeps State.seqIdx _ _ fun _ => rfl]
  simpa using issueAll_seqIdx_le (initTable s.cfg) (s.setSeqIdx 0)

/-! ## Writes of the reset line -/

/-- The levels written to the reset line, in order. -/
def rstLevels : List Event → List Level
  | [] => []
  | .dc _ :: es => rstLevels es
  | .rst l :: es => l :: rstLevels es
  | .xfer _ :: es => rstLevels es
  | .wait _ :: es => rstLevels es

theorem rstLevels_append (t u : List Event) : rstLevels (t ++ u) = rstLevels t ++ rstLevels u := by
  induction t with
  | nil => rfl
  | cons e t ih => cases e <;> simp [rstLevels, ih]

theorem mem_rstLevels (l : Level) (t : List Event) : l ∈ rstLevels t ↔ Event.rst l ∈ t := by
  induction t with
  | nil => simp [rstLevels]
  | cons e t ih => cases e <;> simp [rstLevels, ih]

/-- Events that write no level leave the line where it was. -/
theorem lastRst_of_rstLevels (d : Option Level) (t : List Event) (h : rstLevels t = []) :
    lastRst d t = d := by
  induction t with
  | nil => rfl
  | cons e t ih =>
    cases e
    case rst l => simp [rstLevels] at h
    all_goals exact ih h

theorem sendChunks_rstLevels (cs : List (List Byte)) (s : State) :
    rstLevels (sendChunks cs s).state.trace = rstLevels s.trace := by
  induction cs generalizing s with
  | nil => rfl
  | cons c cs ih =>
    rw [sendChunks, bind_keeps (fun s => rstLevels s.trace) _ _ ih]
    unfold transact
    split <;> simp [raise, State.emit, State.takeAnswer, rstLevels_append, rstLevels]

theorem send_rstLevels (bs : List Byte) (d : Bool) (c : Nat) (s : State) :
    rstLevels (send bs d c s).state.trace = rstLevels s.trace := by
  rw [send, sendChunks_rstLevels, send_prologue]
  simp [rstLevels_append, rstLevels]

theorem windowSeq_rstLevels (x0 y0 x1 y1 : Nat) (s : State) :
    rstLevels (windowSeq x0 y0 x1 y1 s).state.trace = rstLevels s.trace := by
  unfold windowSeq
  repeat rw [bind_keeps (fun s => rstLevels s.trace) _ _ fun _ => ?_, send_rstLevels]
  all_goals rfl

theorem issueEntry_rstLevels (e : InitRecord) (s : State) :
    rstLevels (issueEntry e s).state.trace = rstLevels s.trace := by
  cases e with
  | wait ms => simp [issueEntry, State.emit, rstLevels_append, rstLevels]
  | cmd c d =>
    rw [issueEntry, bind_keeps (fun s => rstLevels s.trace) _ _ fun t => ?_, send_rstLevels]
    split
    · rfl
    · exact send_rstLevels _ _ _ _

theorem issueAll_rstLevels (es : List InitRecord) (s : State) :
    rstLevels (issueAll es s).state.trace = rstLevels s.trace := by
  induction es generalizing s with
  | nil => rfl
  | cons e es ih =>
    rw [issueAll, bind_keeps (fun s => rstLevels s.trace) _ _ fun t => ?_, issueEntry_rstLevels]
    exact ih _

theorem initSequence_rstLevels (s : State) :
    rstLevels (initSequence s).state.trace = rstLevels s.trace := by
  unfold initSequence
  rw [bind_keeps (fun s => rstLevels s.trace) _ _ fun _ => rfl]
  exact issueAll_rstLevels _ _

/-- Without a reset line the pulse is no event at all. -/
theorem resetPulse_absent {s : State} (h : s.cfg.hasRst = false) : s.resetPulse = s := by
  simp [State.resetPulse, h]

/-! ## Everything an operation can do -/

/-- What an operation can do from `s` before its response: nothing (dead, turned away, or a value read),
a write of the frame buffer, or a stretch on the lines and the bus. -/
inductive Effect (s : State) : Flow → List Event → Prop where
  /-- CONFIG_ERROR (60_exceptions.md R211). -/
  | dead (h : s.dead = true) : Effect s (.stop .configError s) []
  /-- GEOMETRY_ERROR or ILLEGAL_OP (60_exceptions.md R218). -/
  | turnedAway (h : s.dead = false) (e : Status) (he : e = .geometryError ∨ e = .illegalOp) :
      Effect s (.stop e s) []
  /-- A value is returned and nothing written. -/
  | reads (h : s.dead = false) : Effect s (.go s) []
  /-- The frame buffer is written, below its end. -/
  | stores (h : s.dead = false) (m : List Host.Cell) (hm : Mem.wf s.fb → Mem.wf m)
      (hr : ∀ c ∈ m, c.1 < s.cfg.fbSize ∨ c ∈ s.fb) : Effect s (.go { s with fb := m }) []
  /-- Lines, bus, window, hazards, lifecycle, step index. -/
  | bus (h : s.dead = false) (f : Flow) (evs : List Event) (lim : Option Nat)
      (hr : Reaches 65535 lim s f evs)
      (hl : ∀ q, lim = some q → s.cfg.sizeOk = true → q ≤ 2 * 65535 * 65535)
      (hlc : f.state.lc = s.lc ∨ f.state.lc = .reset ∨ f.state.lc = .ready)
      (hseq : f.state.seqIdx = s.seqIdx ∨ f.state.seqIdx ≤ (initTable s.cfg).length) :
      Effect s f evs

theorem windowBytes_le {p : Params} {x0 y0 x1 y1 : Nat} (hs : p.sizeOk = true)
    (hx : x1 < p.width) (hy : y1 < p.height) :
    windowBytes x0 y0 x1 y1 ≤ 2 * 65535 * 65535 := by
  simp only [Params.sizeOk, decide_eq_true_eq] at hs
  unfold windowBytes
  exact Nat.mul_le_mul (Nat.mul_le_mul_left 2 (by omega)) (by omega)

/-- The window sequence of the full panel, and whatever follows it that keeps to its limits. -/
theorem fullWindow_effect {s : State} (h : s.dead = false) (k : State → Flow)
    (hk : ∀ t, ∃ evs, Reaches 65535
      (some (windowBytes 0 0 (s.cfg.width - 1) (s.cfg.height - 1))) t (k t) evs)
    (hlc : ∀ t, (k t).state.lc = t.lc) (hseq : ∀ t, (k t).state.seqIdx = t.seqIdx) :
    ∃ evs, Effect s ((fullWindowSeq s).bind k) evs := by
  obtain ⟨e1, h1⟩ := windowSeq_reaches 0 0 (s.cfg.width - 1) (s.cfg.height - 1) s
  obtain ⟨e2, h2⟩ := (h1.mono (show 64 ≤ 65535 by omega)).bind (k := k) fun t _ => hk t
  refine ⟨_, .bus h _ _ _ h2 ?_ (.inl ?_) (.inl ?_)⟩
  · intro q hq hs
    rw [← Option.some.inj hq]
    have hs' := hs
    simp only [Params.sizeOk, decide_eq_true_eq] at hs'
    exact windowBytes_le hs (by omega) (by omega)
  · rw [bind_keeps State.lc _ _ hlc]; exact windowSeq_lc _ _ _ _ s
  · rw [bind_keeps State.seqIdx _ _ hseq]; exact windowSeq_seqIdx _ _ _ _ s

theorem send_effect {s : State} (h : s.dead = false) (bs : List Byte) (d : Bool) (chunk : U16) :
    ∃ evs, Effect s (send bs d (chunkOf chunk) s) evs := by
  obtain ⟨evs, hr⟩ := send_reaches none bs d (chunkOf_pos chunk) s
  exact ⟨evs, .bus h _ _ none (hr.mono (chunkOf_le chunk)) (by simp) (.inl (send_lc _ _ _ _))
    (.inl (send_seqIdx _ _ _ _))⟩

theorem initSequence_effect {s u : State} (h : s.dead = false) (evs : List Event)
    (hu : Reaches 65535 none s (.go u) evs) (hlc : u.lc = s.lc ∨ u.lc = .reset) :
    ∃ evs, Effect s (initSequence u) evs := by
  obtain ⟨e1, h1⟩ := initSequence_reaches none u
  obtain ⟨e2, h2⟩ := hu.bind (k := initSequence) fun t ht => by
    obtain rfl := Flow.go.inj ht
    exact ⟨e1, h1.mono (by omega)⟩
  have hc : u.cfg = s.cfg := by
    have := congrArg State.cfg hu.frame
    simpa using this
  refine ⟨_, .bus h _ _ none h2 (by simp) ?_ (.inr ?_)⟩
  · rcases initSequence_lc u with ⟨t, ht, hl⟩ | ⟨e, t, ht, hl⟩
    · right; right; rw [ht]; exact hl
    · rw [ht, Flow.state_stop, hl]
      rcases hlc with h | h <;> simp [h]
  · rw [← hc]; exact initSequence_seqIdx_le u

/-- Everything an operation can do. -/
theorem exec_effect (i : Instr) (s : State) :
    ∃ f v evs, exec i s = .next (finish i.length v f) ∧ Effect s f evs := by
  by_cases hd : s.dead = true
  · cases i <;>
      exact ⟨_, _, _, rfl, by rw [start_dead hd]; exact .dead hd⟩
  · have h : s.dead = false := by simpa using hd
    have turned : ∀ (c : Bool) (e : Status) (k : State → Flow),
        (e = .geometryError ∨ e = .illegalOp) → (c = true → ∃ evs, Effect s (k s) evs) →
        ∃ evs, Effect s ((require c e s).bind k) evs := by
      intro c e k he hk
      cases c with
      | false => exact ⟨[], .turnedAway h e he⟩
      | true => exact hk rfl
    cases i with
    | cvt565 r g b => exact ⟨_, _, _, rfl, by rw [start_live h]; exact .reads h⟩
    | sendc chunk p =>
      obtain ⟨evs, he⟩ := send_effect h p false chunk
      exact ⟨_, _, evs, rfl, by rw [start_live h]; exact he⟩
    | sendd chunk p =>
      obtain ⟨evs, he⟩ := send_effect h p true chunk
      exact ⟨_, _, evs, rfl, by rw [start_live h]; exact he⟩
    | resetOp =>
      obtain ⟨evs, hr⟩ := (resetPulse_reaches 65535 none s).bind
        (k := fun t => .go (t.setLc .reset)) fun t _ => ⟨[], Reaches.quiet 65535 none t _ rfl⟩
      have hseq : (s.resetPulse.setLc .reset).seqIdx = s.seqIdx := by simp [resetPulse_eq]
      exact ⟨_, _, _, rfl, by
        rw [start_live h]
        exact .bus h _ _ none hr (by simp) (.inr (.inl rfl)) (.inl hseq)⟩
    | initOp =>
      obtain ⟨evs, he⟩ := initSequence_effect h [] (Reaches.quiet 65535 none s s rfl) (.inl rfl)
      exact ⟨_, _, evs, rfl, by rw [start_live h]; exact he⟩
    | beginOp =>
      obtain ⟨e1, hr⟩ := (resetPulse_reaches 65535 none s).bind
        (k := fun t => .go (t.setLc .reset)) fun t _ => ⟨[], Reaches.quiet 65535 none t _ rfl⟩
      obtain ⟨evs, he⟩ := initSequence_effect (u := s.resetPulse.setLc .reset) h _ hr (.inr rfl)
      exact ⟨_, _, evs, rfl, by rw [start_live h]; exact he⟩
    | setwin x0 y0 x1 y1 =>
      obtain ⟨evs, he⟩ := turned (validWin s.cfg x0.toNat y0.toNat x1.toNat y1.toNat)
        .geometryError (windowSeq x0.toNat y0.toNat x1.toNat y1.toNat) (.inl rfl) fun hv => by
          obtain ⟨evs, hr⟩ := windowSeq_reaches x0.toNat y0.toNat x1.toNat y1.toNat s
          simp only [validWin, decide_eq_true_eq] at hv
          refine ⟨evs, .bus h _ _ _ (hr.mono (by omega)) ?_ (.inl (windowSeq_lc _ _ _ _ _))
            (.inl (windowSeq_seqIdx _ _ _ _ _))⟩
          intro q hq hs
          rw [← Option.some.inj hq]
          exact windowBytes_le hs hv.2.1 hv.2.2.2
      exact ⟨_, _, evs, rfl, by rw [start_live h]; exact he⟩
    | setwinf =>
      obtain ⟨evs, he⟩ := fullWindow_effect h .go
        (fun t => ⟨[], Reaches.quiet 65535 _ t t rfl⟩) (fun _ => rfl) (fun _ => rfl)
      refine ⟨_, _, evs, rfl, ?_⟩
      rw [start_live h, Flow.bind_go]
      have hb : (fullWindowSeq s).bind .go = fullWindowSeq s := by
        cases fullWindowSeq s <;> rfl
      rwa [hb] at he
    | clear r g b =>
      exact ⟨_, _, _, rfl, by
        rw [start_live h]
        exact .stores h _ (Mem.wf_fill _ _ _) (Mem.fill_keys _ _ _)⟩
    | fbwr x y r g b =>
      obtain ⟨evs, he⟩ := turned (onPanel s.cfg x.toNat y.toNat) .geometryError
        (fun s => .go (s.fbWrite (fbAddr s.cfg.width x.toNat y.toNat 0) [r, g, b])) (.inl rfl)
        fun hv => by
          simp only [onPanel, decide_eq_true_eq] at hv
          refine ⟨[], .stores h _ (Mem.wf_writes _ _ _) fun c hc => ?_⟩
          rcases Mem.writes_keys _ _ _ c hc with hc | hc
          · left
            have := fbAddr_lt hv.1 hv.2 (show 2 < 3 by omega)
            simp only [fbAddr, List.length_cons, List.length_nil] at this hc
            omega
          · exact .inr hc
      exact ⟨_, _, evs, rfl, by rw [start_live h]; exact he⟩
    | fbrd x y =>
      obtain ⟨evs, he⟩ := turned (onPanel s.cfg x.toNat y.toNat) .geometryError .go (.inl rfl)
        fun _ => ⟨[], .reads h⟩
      refine ⟨_, _, evs, rfl, ?_⟩
      rw [start_live h, Flow.bind_go]
      have hb : (require (onPanel s.cfg x.toNat y.toNat) .geometryError s).bind .go =
          require (onPanel s.cfg x.toNat y.toNat) .geometryError s := by
        cases require (onPanel s.cfg x.toNat y.toNat) .geometryError s <;> rfl
      rwa [hb] at he
    | display =>
      obtain ⟨evs, he⟩ := fullWindow_effect h (fun s => sendImage s.fbImage s)
        (fun t => by
          obtain ⟨e, he⟩ := sendImage_reaches _ t.fbImage t
          exact ⟨e, he.mono (by omega)⟩)
        (fun _ => send_lc _ _ _ _) (fun _ => send_seqIdx _ _ _ _)
      exact ⟨_, _, evs, rfl, by rw [start_live h]; exact he⟩
    | dispimg w hh pixels =>
      obtain ⟨evs, he⟩ := turned (decide (w.toNat = s.cfg.width ∧ hh.toNat = s.cfg.height))
        .geometryError (fun s => (fullWindowSeq s).bind (sendImage pixels)) (.inl rfl) fun _ =>
          fullWindow_effect h (sendImage pixels)
            (fun t => by
              obtain ⟨e, he⟩ := sendImage_reaches _ pixels t
              exact ⟨e, he.mono (by omega)⟩)
            (fun _ => send_lc _ _ _ _) (fun _ => send_seqIdx _ _ _ _)
      exact ⟨_, _, evs, rfl, by rw [start_live h]; exact he⟩
    | query idx =>
      obtain ⟨evs, he⟩ := turned (queryItem s idx).isSome .illegalOp .go (.inr rfl)
        fun _ => ⟨[], .reads h⟩
      refine ⟨_, _, evs, rfl, ?_⟩
      rw [start_live h, Flow.bind_go]
      have hb : (require (queryItem s idx).isSome .illegalOp s).bind .go =
          require (queryItem s idx).isSome .illegalOp s := by
        cases require (queryItem s idx).isSome .illegalOp s <;> rfl
      rwa [hb] at he

/-- Only RESET and BEGIN write the reset line, and only where there is one (41_bus_framer.md R150). -/
theorem exec_rstLevels {i : Instr} {s t : State} (h : exec i s = .next t)
    (hi : s.cfg.hasRst = false ∨ (i ≠ .resetOp ∧ i ≠ .beginOp)) :
    rstLevels t.trace = rstLevels s.trace := by
  have key : ∀ (n : Nat) (v : U64) (c : State → Bool) (e : Status) (k : State → Flow),
      (∀ u, rstLevels (k u).state.trace = rstLevels u.trace) →
      rstLevels (finish n v ((start s).bind fun s => (require (c s) e s).bind k)).trace =
        rstLevels s.trace := by
    intro n v c e k hk
    rw [finish_trace]
    unfold start
    split
    · rfl
    · rw [Flow.bind_go]
      cases c s
      · rfl
      · exact hk s
  have go : ∀ u, rstLevels (Flow.go u).state.trace = rstLevels u.trace := fun _ => rfl
  have win : ∀ (k : State → Flow), (∀ u, rstLevels (k u).state.trace = rstLevels u.trace) →
      ∀ u, rstLevels ((fullWindowSeq u).bind k).state.trace = rstLevels u.trace := fun k hk u => by
    rw [bind_keeps (fun s => rstLevels s.trace) _ _ hk]
    exact windowSeq_rstLevels _ _ _ _ _
  have bindGo : ∀ f : Flow, f.bind .go = f := fun f => by cases f <;> rfl
  cases i <;> simp only [exec] at h <;> obtain rfl := Host.Outcome.next.inj h
  case cvt565 r g b =>
    have := key (Instr.cvt565 r g b).length ((rgb565 r g b).setWidth 64) (fun _ => true) .ok .go go
    simp only [bindGo, require_true] at this
    exact this
  case sendc c p => exact key _ _ (fun _ => true) .ok _ (send_rstLevels _ _ _)
  case sendd c p => exact key _ _ (fun _ => true) .ok _ (send_rstLevels _ _ _)
  case resetOp =>
    have hr : s.cfg.hasRst = false := by simpa using hi
    rw [finish_trace]
    unfold start
    split
    · rfl
    · simp [resetPulse_absent hr]
  case initOp => exact key _ _ (fun _ => true) .ok _ initSequence_rstLevels
  case beginOp =>
    have hr : s.cfg.hasRst = false := by simpa using hi
    rw [finish_trace]
    unfold start
    split
    · rfl
    · simp only [Flow.bind_go, resetPulse_absent hr]
      rw [initSequence_rstLevels]
      rfl
  case setwin x0 y0 x1 y1 =>
    exact key _ _ (fun s => validWin s.cfg x0.toNat y0.toNat x1.toNat y1.toNat) _ _
      (windowSeq_rstLevels _ _ _ _)
  case setwinf => exact key _ _ (fun _ => true) .ok _ fun u => windowSeq_rstLevels _ _ _ _ u
  case clear r g b => exact key _ _ (fun _ => true) .ok _ fun _ => rfl
  case fbwr x y r g b =>
    exact key _ _ (fun s => onPanel s.cfg x.toNat y.toNat) _
      (fun u => .go (u.fbWrite (fbAddr u.cfg.width x.toNat y.toNat 0) [r, g, b]))
      fun _ => rfl
  case fbrd x y =>
    have := key (Instr.fbrd x y).length (packRgb (s.fbRead (fbAddr s.cfg.width x.toNat y.toNat 0) 3))
      (fun _ => onPanel s.cfg x.toNat y.toNat) .geometryError .go go
    simp only [bindGo] at this
    exact this
  case display => exact key _ _ (fun _ => true) .ok _ (win _ fun _ => send_rstLevels _ _ _ _)
  case dispimg w hh px =>
    exact key _ _ (fun s => decide (w.toNat = s.cfg.width ∧ hh.toNat = s.cfg.height)) _ _
      (win _ fun _ => send_rstLevels _ _ _ _)
  case query idx =>
    have := key (Instr.query idx).length (BitVec.ofNat 64 ((queryItem s idx).getD 0))
      (fun _ => (queryItem s idx).isSome) .illegalOp .go go
    simp only [bindGo] at this
    exact this

/-- An illegal opcode's effect. -/
theorem illegalOpcode_effect (s : State) :
    ∃ f, illegalOpcode s = finish 1 0 f ∧ Effect s f [] := by
  by_cases hd : s.dead = true
  · exact ⟨_, rfl, by rw [start_dead hd]; exact .dead hd⟩
  · have h : s.dead = false := by simpa using hd
    exact ⟨_, rfl, by rw [start_live h]; exact .turnedAway h _ (.inr rfl)⟩

/-- Everything a step can do: wait, with nothing changed, or complete one operation of `n` bytes that
are all there. -/
theorem step_cases {s t : State} (h : step s = .next t) :
    (fetch s = .truncated ∧ t = s) ∨
    ∃ f v evs n, t = finish n v f ∧ Effect s f evs ∧ 1 ≤ n ∧ s.opPos + n ≤ s.stream.length := by
  have hlen : ∀ n, 1 ≤ n → n ≤ (s.stream.drop s.opPos).length → s.opPos + n ≤ s.stream.length := by
    intro n h1 h2
    rw [List.length_drop] at h2
    omega
  unfold step at h
  split at h
  · rename_i i rest hf
    obtain ⟨f, v, evs, he, heff⟩ := exec_effect i s
    rw [he] at h
    obtain rfl := Host.Outcome.next.inj h
    have hl := decode_length hf
    have h1 : 1 ≤ i.length := by cases i <;> simp only [Instr.length] <;> omega
    exact .inr ⟨f, v, evs, i.length, rfl, heff, h1, hlen _ h1 (by omega)⟩
  · rename_i b hf
    obtain ⟨f, he, heff⟩ := illegalOpcode_effect s
    obtain ⟨rest, hr, _⟩ := decode_illegal hf
    rw [he] at h
    obtain rfl := Host.Outcome.next.inj h
    exact .inr ⟨f, 0, [], 1, rfl, heff, le_rfl, hlen 1 le_rfl (by rw [hr]; simp)⟩
  · exact .inl ⟨‹_›, (Host.Outcome.next.inj h).symm⟩

/-- The events of an effect, and the lines they leave. -/
theorem Effect.trace {s : State} {f : Flow} {evs : List Event} (h : Effect s f evs) :
    f.state.trace = s.trace ++ evs ∧ f.state.rst = lastRst s.rst evs ∧
      f.state.dc = lastDc s.dc evs := by
  cases h with
  | bus h f evs lim hr hl hlc hseq =>
    refine ⟨?_, hr.rst, hr.dc⟩
    rw [hr.frame]
    rfl
  | _ => simp [lastRst, lastDc]

/-- Without a reset line no step writes its level (10_state.md R39). -/
theorem step_rst_absent {s t : State} (h : step s = .next t) (hr : s.cfg.hasRst = false) :
    t.rst = s.rst := by
  unfold step at h
  split at h
  · rename_i i rest hf
    obtain ⟨f, v, evs, he, heff⟩ := exec_effect i s
    have hl := exec_rstLevels h (.inl hr)
    rw [he] at h
    obtain rfl := Host.Outcome.next.inj h
    rw [finish_trace, heff.trace.1, rstLevels_append] at hl
    rw [finish_rst, heff.trace.2.1]
    exact lastRst_of_rstLevels _ _ (by simpa using hl)
  · obtain ⟨f, he, heff⟩ := illegalOpcode_effect s
    rw [he] at h
    obtain rfl := Host.Outcome.next.inj h
    rw [finish_rst, heff.trace.2.1]
    rfl
  · rw [Host.Outcome.next.inj h]

end Sys2Proof.Machine
end

