-- ==== Sys2Proof/Laws/Outcomes.lean ====
section
/-! SUPPORT. The exact outcome of each shared operation that reaches the bus, for every answer of the bus
agent: `Does` says where it ends when all answers are ok, and where it stops at the first err. -/

namespace Sys2Proof.Machine

/-! ## Events through a transaction -/

theorem throughXfer_append_left (t u : List Event) (n : Nat) (h : n ≤ xferCount t) :
    throughXfer n (t ++ u) = throughXfer n t := by
  induction t generalizing n with
  | nil =>
    have : n = 0 := by simpa [xferCount] using h
    subst this; simp [throughXfer]
  | cons e t ih =>
    cases n with
    | zero => rfl
    | succ n =>
      cases e <;> simp only [List.cons_append, throughXfer, List.cons.injEq, true_and] <;>
        refine ih _ ?_ <;> simp only [xferCount] at h <;> omega

theorem throughXfer_append_right (t u : List Event) (n : Nat) (h : xferCount t < n) :
    throughXfer n (t ++ u) = t ++ throughXfer (n - xferCount t) u := by
  induction t generalizing n with
  | nil => simp [xferCount]
  | cons e t ih =>
    cases n with
    | zero => omega
    | succ n =>
      cases e <;> simp only [List.cons_append, throughXfer, xferCount, List.cons.injEq, true_and]
        at h ⊢
      case xfer bs => rw [ih n (by omega)]; congr 2; omega
      all_goals exact ih (n + 1) h

theorem throughXfer_map_xfer (cs : List (List Byte)) (n : Nat) :
    throughXfer n (cs.map .xfer) = (cs.take n).map .xfer := by
  induction cs generalizing n with
  | nil => cases n <;> rfl
  | cons c cs ih => cases n <;> simp [throughXfer, ih]

theorem xferCount_throughXfer (t : List Event) (n : Nat) (h : n ≤ xferCount t) :
    xferCount (throughXfer n t) = n := by
  induction t generalizing n with
  | nil =>
    have : n = 0 := by simpa [xferCount] using h
    subst this; rfl
  | cons e t ih =>
    cases n with
    | zero => rfl
    | succ n =>
      cases e <;> simp only [throughXfer, xferCount] at h ⊢
      case xfer bs => rw [ih n (by omega)]
      all_goals exact ih (n + 1) h

/-! ## Exact outcomes -/

/-- The state in which an operation with the events `evs` meets the error at transaction `k`
(41_bus_framer.md R144). -/
def failed (s : State) (evs : List Event) (k : Nat) (haz : BitVec 3) (lc : Lifecycle) (seq : Nat) :
    State :=
  { s.performs (throughXfer (k + 1) evs) with
    dc := lastDc s.dc (throughXfer (k + 1) evs)
    rst := lastRst s.rst (throughXfer (k + 1) evs)
    win := .unknown
    haz := haz
    lc := lc
    seqIdx := seq }

/-- `f`, run from `s`, has the events `evs`: it ends in `u` where every answer is ok, and where the first
err is at transaction `k` it stops there, the hazards being `haz` and the lifecycle `lc`. -/
structure Does (s : State) (f : Flow) (evs : List Event) (u : State) (haz : BitVec 3)
    (lc : Lifecycle) : Prop where
  ok : BusOk s (xferCount evs) → f = .go u
  err : ∀ k < xferCount evs, BusErrAt s k →
    ∃ seq, f = .stop .transportError (failed s evs k haz lc seq)
  frame : u = { s.performs evs with
    dc := lastDc s.dc evs, rst := lastRst s.rst evs,
    lc := u.lc, seqIdx := u.seqIdx, win := u.win, haz := u.haz }

/-- One stretch after another. -/
theorem Does.bind {s u v : State} {f : Flow} {k : State → Flow} {e1 e2 : List Event}
    {haz : BitVec 3} {lc : Lifecycle} (h1 : Does s f e1 u haz lc)
    (h2 : Does u (k u) e2 v haz lc) : Does s (f.bind k) (e1 ++ e2) v haz lc := by
  have hu1 : u.answers = (s.performs e1).answers := by rw [h1.frame]
  have hu2 : u.xfers = (s.performs e1).xfers := by rw [h1.frame]
  have hans : ∀ j, u.answer j = s.answer (xferCount e1 + j) := fun j => by
    rw [answer_congr hu1 hu2, answer_performs]
  have hback : ∀ n, BusOk s (xferCount e1 + n) → BusOk u n := fun n hn j hj => by
    rw [hans]; exact hn _ (by omega)
  refine ⟨?_, ?_, ?_⟩
  · intro h
    rw [xferCount_append] at h
    rw [h1.ok (h.mono (by omega)), Flow.bind_go]
    exact h2.ok (hback _ h)
  · intro j hj h
    rw [xferCount_append] at hj
    by_cases hlt : j < xferCount e1
    · obtain ⟨seq, hf⟩ := h1.err j hlt h
      refine ⟨seq, ?_⟩
      rw [hf, Flow.bind_stop, failed, failed, throughXfer_append_left _ _ _ (by omega)]
    · have hok1 : BusOk s (xferCount e1) := h.1.mono (by omega)
      rw [h1.ok hok1, Flow.bind_go]
      obtain ⟨seq, hf⟩ := h2.err (j - xferCount e1) (by omega)
        ⟨hback _ (by rw [show xferCount e1 + (j - xferCount e1) = j by omega]; exact h.1),
          by rw [hans, show xferCount e1 + (j - xferCount e1) = j by omega]; exact h.2⟩
      refine ⟨seq, ?_⟩
      rw [hf]
      congr 1
      unfold failed
      rw [throughXfer_append_right _ _ _ (by omega), lastDc_append, lastRst_append,
        ← State.performs_performs, show j + 1 - xferCount e1 = j - xferCount e1 + 1 by omega,
        h1.frame]
      simp only [State.performs]
  · rw [h2.frame, lastDc_append, lastRst_append, ← State.performs_performs, h1.frame]
    simp only [State.performs]

/-- A step of the pseudocode with no transaction. -/
theorem Does.silent {s u : State} (evs : List Event) (haz : BitVec 3) (lc : Lifecycle)
    (h0 : xferCount evs = 0)
    (h : u = { s.performs evs with
      dc := lastDc s.dc evs, rst := lastRst s.rst evs,
      lc := u.lc, seqIdx := u.seqIdx, win := u.win, haz := u.haz }) :
    Does s (.go u) evs u haz lc :=
  ⟨fun _ => rfl, fun k hk => by omega, h⟩

theorem send_does (bs : List Byte) (isData : Bool) (c : Nat) (s : State) :
    Does s (send bs isData c s) (sendEvents bs isData c)
      { s.performs (sendEvents bs isData c) with
        dc := some (dcLevel isData)
        win := winAfter isData bs.length s.win
        haz := hazAfter isData bs.length s.win s.haz }
      (hazAfter isData bs.length s.win s.haz) s.lc := by
  refine ⟨fun h => send_ok _ _ _ _ (by rwa [xferCount_sendEvents] at h), ?_, ?_⟩
  · intro k hk h
    rw [xferCount_sendEvents] at hk
    refine ⟨s.seqIdx, ?_⟩
    rw [send_err _ _ _ _ k hk h]
    simp only [failed, sendEvents, throughXfer, throughXfer_map_xfer, lastDc, lastRst,
      lastDc_map_xfer, lastRst_map_xfer, State.performs]
  · simp [sendEvents, lastDc, lastRst, lastDc_map_xfer, lastRst_map_xfer]

/-- A command byte. -/
theorem cmd_does (c : Byte) (s : State) :
    Does s (send [c] false 64 s) [.dc .low, .xfer [c]]
      { s.performs [.dc .low, .xfer [c]] with
        dc := some .low
        win := .none
        haz := hazAfterCmd s.win s.haz }
      (hazAfterCmd s.win s.haz) s.lc := by
  have h := send_does [c] false 64 s
  rwa [show sendEvents [c] false 64 = [.dc .low, .xfer [c]] by
    simp [sendEvents, chunks_single, dcLevel]] at h

/-- Command parameters, outside a window. -/
theorem params_does (d : List Byte) (s : State) (hw : s.win = .none) :
    Does s (send d true 64 s) (sendEvents d true 64)
      { s.performs (sendEvents d true 64) with dc := some .high } s.haz s.lc := by
  have h := send_does d true 64 s
  have h2 : ({ s.performs (sendEvents d true 64) with
      dc := some (dcLevel true)
      win := winAfter true d.length s.win
      haz := hazAfter true d.length s.win s.haz } : State) =
      { s.performs (sendEvents d true 64) with dc := some .high } := by
    cases s
    simp_all [winAfter, hazAfter, winAfterData, hazAfterData, dcLevel, State.performs]
  have h3 : hazAfter true d.length s.win s.haz = s.haz := by
    rw [hw]; rfl
  rwa [h2, h3] at h

/-- One init record (42_register_protocol.md R163). -/
theorem issueEntry_does (e : InitRecord) (s : State) :
    ∃ u, Does s (issueEntry e s) (recordEvents e) u (hazAfterCmd s.win s.haz) s.lc ∧
      u.lc = s.lc ∧ u.seqIdx = s.seqIdx ∧
      u.win = (if recordIsCmd e then .none else s.win) ∧
      u.haz = (if recordIsCmd e then hazAfterCmd s.win s.haz else s.haz) := by
  cases e with
  | wait ms =>
    exact ⟨_, Does.silent _ _ _ rfl (by simp [State.emit, State.performs, xferCount, lastDc,
      lastRst, recordEvents]), rfl, rfl, rfl, rfl⟩
  | cmd c d =>
    have h1 : issueEntry (.cmd c d) s = (send [c] false 64 s).bind
        fun s => if d = [] then .go s else send d true 64 s := rfl
    by_cases hd : d = []
    · have := (cmd_does c s).bind (k := fun s => if d = [] then .go s else send d true 64 s)
        (by rw [if_pos hd]; exact Does.silent [] _ _ rfl (by simp [lastDc, lastRst]))
      have h2 : recordEvents (.cmd c d) = [.dc .low, .xfer [c]] ++ [] := by simp [recordEvents, hd]
      rw [h1, h2]
      exact ⟨_, this, rfl, rfl, rfl, rfl⟩
    · have := (cmd_does c s).bind (k := fun s => if d = [] then .go s else send d true 64 s)
        (by rw [if_neg hd]; exact params_does d _ rfl)
      have h2 : recordEvents (.cmd c d) = [.dc .low, .xfer [c]] ++ sendEvents d true 64 := by
        simp [recordEvents, hd]
      rw [h1, h2]
      exact ⟨_, this, rfl, rfl, rfl, rfl⟩

/-- The sequencer's loop (42_register_protocol.md R164). -/
theorem issueAll_does (es : List InitRecord) (s : State) :
    ∃ u, Does s (issueAll es s) (es.flatMap recordEvents) u (hazAfterCmd s.win s.haz) s.lc ∧
      u.lc = s.lc ∧ u.seqIdx = s.seqIdx + es.length ∧
      u.win = (if es.any recordIsCmd then .none else s.win) ∧
      u.haz = (if es.any recordIsCmd then hazAfterCmd s.win s.haz else s.haz) := by
  induction es generalizing s with
  | nil => exact ⟨s, Does.silent [] _ _ rfl (by simp [lastDc, lastRst]), rfl, rfl, rfl, rfl⟩
  | cons e es ih =>
    obtain ⟨u, hu, hlc, hseq, hwin, hhaz⟩ := issueEntry_does e s
    obtain ⟨v, hv, hlc2, hseq2, hwin2, hhaz2⟩ := ih (u.setSeqIdx (u.seqIdx + 1))
    have hH : hazAfterCmd u.win u.haz = hazAfterCmd s.win s.haz := by
      rw [hwin, hhaz]; split <;> simp [hazAfterCmd]
    simp only [State.setSeqIdx_win, State.setSeqIdx_haz, State.setSeqIdx_lc,
      State.setSeqIdx_seqIdx, hH, hlc] at hv hlc2 hseq2 hwin2 hhaz2
    have hmid : Does u (.go (u.setSeqIdx (u.seqIdx + 1))) [] (u.setSeqIdx (u.seqIdx + 1))
        (hazAfterCmd s.win s.haz) s.lc :=
      Does.silent [] _ _ rfl (by simp [lastDc, lastRst, State.setSeqIdx])
    refine ⟨v, ?_, hlc2, by rw [hseq2, hseq, List.length_cons]; omega, ?_, ?_⟩
    · have := hu.bind (k := fun s => issueAll es (s.setSeqIdx (s.seqIdx + 1)))
        (hmid.bind (k := issueAll es) hv)
      simpa [issueAll] using this
    · rw [hwin2, hwin]; simp only [List.any_cons]
      by_cases h : recordIsCmd e = true <;> simp [h]
    · rw [hhaz2, hhaz]; simp only [List.any_cons]
      by_cases h : recordIsCmd e = true <;> simp [h]

/-- The initialization sequence (42_register_protocol.md R164): on an err the lifecycle is what it was
(60_exceptions.md R219). -/
theorem initSequence_does (s : State) :
    Does s (initSequence s) (initEvents s.cfg)
      { s.performs (initEvents s.cfg) with
        dc := some .low
        seqIdx := (initTable s.cfg).length
        lc := .ready
        win := .none
        haz := hazAfterCmd s.win s.haz }
      (hazAfterCmd s.win s.haz) s.lc := by
  have h1 : lastDc s.dc (initEvents s.cfg) = some .low := by
    simp [initEvents, initTable, initTail, recordEvents, lastDc_append, lastDc]
  have h2 : ∀ es d, lastRst d (List.flatMap recordEvents es) = d := by
    intro es
    induction es with
    | nil => intro d; rfl
    | cons e es ih =>
      intro d
      rw [List.flatMap_cons, lastRst_append, ih]
      cases e with
      | wait ms => rfl
      | cmd c dd =>
        simp only [recordEvents, lastRst_append]
        split <;> simp [lastRst, sendEvents, lastRst_map_xfer]
  refine ⟨initSequence_ok s, ?_, ?_⟩
  · intro k hk h
    obtain ⟨u, hu, _⟩ := issueAll_does (initTable s.cfg) (s.setSeqIdx 0)
    obtain ⟨seq, hf⟩ := hu.err k hk
      ⟨BusOk.congr (s := s) h.1 rfl rfl, (answer_congr (s := s) (t := s.setSeqIdx 0) rfl rfl k).trans h.2⟩
    refine ⟨seq, ?_⟩
    rw [initSequence, hf]
    rfl
  · rw [h1, initEvents, h2]
    rfl

/-- The window sequence (42_register_protocol.md R165). -/
theorem windowSeq_does (x0 y0 x1 y1 : Nat) (s : State) :
    Does s (windowSeq x0 y0 x1 y1 s) (windowEvents s.cfg x0 y0 x1 y1)
      { s.performs (windowEvents s.cfg x0 y0 x1 y1) with
        dc := some .low
        win := .opened (windowBytes x0 y0 x1 y1)
        haz := hazAfterCmd s.win s.haz }
      (hazAfterCmd s.win s.haz) s.lc := by
  have hp : ∀ a b c d : Byte, sendEvents [a, b, c, d] true 64 = [.dc .high, .xfer [a, b, c, d]] := by
    intro a b c d; simp [sendEvents, chunks_single, dcLevel]
  have hparams : ∀ (a b c d : Byte) (t : State), t.win = .none →
      Does t (send [a, b, c, d] true 64 t) [.dc .high, .xfer [a, b, c, d]]
        { t.performs [.dc .high, .xfer [a, b, c, d]] with dc := some .high } t.haz t.lc := by
    intro a b c d t ht
    have := params_does [a, b, c, d] t ht
    rwa [hp] at this
  refine ⟨windowSeq_ok x0 y0 x1 y1 s, ?_, by simp [windowEvents, lastDc, lastRst]⟩
  have h1 := cmd_does s.cfg.cmdCaset s
  have h2 := h1.bind (k := fun s => send [hi8 x0, lo8 x0, hi8 x1, lo8 x1] true 64 s)
    (hparams _ _ _ _ _ rfl)
  have h3 := h2.bind (k := fun t => send [t.cfg.cmdPaset] false 64 t) (cmd_does _ _)
  have h4 := h3.bind (k := fun s => send [hi8 y0, lo8 y0, hi8 y1, lo8 y1] true 64 s)
    (hparams _ _ _ _ _ rfl)
  have h5 := h4.bind (k := fun t => send [t.cfg.cmdRamwr] false 64 t) (cmd_does _ _)
  have h6 := h5.bind (k := fun t => .go (t.setWin (.opened (windowBytes x0 y0 x1 y1))))
    (Does.silent [] _ _ rfl (by simp [lastDc, lastRst, State.setWin]))
  intro k hk h
  obtain ⟨seq, hf⟩ := h6.err k hk h
  refine ⟨seq, ?_⟩
  have assoc : ∀ (f : Flow) (k1 k2 : State → Flow),
      (f.bind k1).bind k2 = f.bind fun s => (k1 s).bind k2 := by
    intro f k1 k2; cases f <;> rfl
  simp only [assoc] at hf
  exact hf

/-- The pixel send into a window that is due exactly its bytes (43_facade.md R185). -/
theorem sendImage_does (img : List Byte) (s : State) (r : Nat) (hw : s.win = .opened r)
    (hr : (encodeLanes s.cfg.lanes.val img).length = r) :
    Does s (sendImage img s) (sendEvents (encodeLanes s.cfg.lanes.val img) true 64)
      { s.performs (sendEvents (encodeLanes s.cfg.lanes.val img) true 64) with
        dc := some .high
        win := .opened 0 }
      s.haz s.lc := by
  have h := send_does (encodeLanes s.cfg.lanes.val img) true 64 s
  have h1 : winAfter true (encodeLanes s.cfg.lanes.val img).length s.win = .opened 0 := by
    simp [winAfter, winAfterData, hw, hr]
  have h2 : hazAfter true (encodeLanes s.cfg.lanes.val img).length s.win s.haz = s.haz := by
    simp [hazAfter, hazAfterData, hw, hr]
  rw [h1, h2] at h
  exact h

end Sys2Proof.Machine
end

