-- ==== Sys2Proof/Laws/PerInstr.lean ====
section
/-! SUPPORT. The per-instruction family EncodedLength: the encoder gives every well-formed operation
exactly as many bytes as 30_encoding.md R99 says it has. -/

namespace Sys2Proof.Laws.EncodedLength

/-- The encoding of a well-formed operation is as long as R99 says. -/
def Statement (i : Instr) : Prop := i.wellFormed = true → (encode i).length = i.length

theorem cvt565 (r g b : Byte) : Statement (.cvt565 r g b) := fun _ => rfl

theorem sendc (chunk : U16) (payload : List Byte) : Statement (.sendc chunk payload) := fun _ => by
  simp [encode, operandBytes, Instr.length]; omega

theorem sendd (chunk : U16) (payload : List Byte) : Statement (.sendd chunk payload) := fun _ => by
  simp [encode, operandBytes, Instr.length]; omega

theorem resetOp : Statement .resetOp := fun _ => rfl

theorem initOp : Statement .initOp := fun _ => rfl

theorem beginOp : Statement .beginOp := fun _ => rfl

theorem setwin (x0 y0 x1 y1 : U16) : Statement (.setwin x0 y0 x1 y1) := fun _ => rfl

theorem setwinf : Statement .setwinf := fun _ => rfl

theorem clear (r g b : Byte) : Statement (.clear r g b) := fun _ => rfl

theorem fbwr (x y : U16) (r g b : Byte) : Statement (.fbwr x y r g b) := fun _ => rfl

theorem fbrd (x y : U16) : Statement (.fbrd x y) := fun _ => rfl

theorem display : Statement .display := fun _ => rfl

theorem dispimg (w h : U16) (pixels : List Byte) : Statement (.dispimg w h pixels) := fun hw => by
  simp only [Instr.wellFormed, decide_eq_true_eq] at hw
  simp [encode, operandBytes, Instr.length, hw]; omega

theorem query (idx : Byte) : Statement (.query idx) := fun _ => rfl

end Sys2Proof.Laws.EncodedLength
end

