-- ==== Sys2Proof/Tests/Slice0.lean ====
section
/-! SUPPORT. Tests: the well-formedness smoke test, decoding of words written out from 30_encoding.md,
one-step tests whose expected results are the vectors of 95_test_vectors.md, and for every obligation
with hypotheses a state and operands that meet them, clause by clause. -/

namespace Sys2Proof.Tests

open Sys2Proof.Machine

/-! ## Helpers -/

/-- A `w × h` panel as constructed, the bus agent's next answers being `acks`. -/
def panel (w h : Nat) (acks : List Ack) : State :=
  { State.constructed { Params.standard with width := w, height := h } with answers := acks }

/-- The same without a reset line. -/
def panelNoRst (w h : Nat) (acks : List Ack) : State :=
  { State.constructed { Params.standard with width := w, height := h, hasRst := false } with
    answers := acks }

/-- A panel with an init body. -/
def panelBody (body : List InitCmd) (acks : List Ack) : State :=
  { State.constructed { Params.standard with initBody := body } with answers := acks }

/-- A dead block (60_exceptions.md R211): the bus device did not open. -/
def deadBlock : State := construct Params.standard ⟨true, true, false⟩

/-- `n` answers ok. -/
def oks (n : Nat) : List Ack := List.replicate n .ok

/-- `n` answers ok, then err. -/
def errAt (n : Nat) : List Ack := oks n ++ [.err]

/-- The state an outcome leads to. -/
def nextOf (o : Host.Outcome State Fault Refusal) : Option State :=
  match o with
  | .next t => some t
  | .fault _ => none
  | .refused _ => none

/-- What `f` reads in the state an operation leads to. -/
def reads {α : Type} (f : State → α) (i : Instr) (s : State) : Option α :=
  (nextOf (exec i s)).map f

/-- The response of an operation run on a block that has given none yet. -/
def reply (i : Instr) (s : State) : Option (List Response) := reads State.responses i s

/-! ## Well-formedness: each check refuses a term (30_encoding.md R91, R94) -/

theorem test_wf_sendc_longest :
    (Instr.sendc 0 (List.replicate 65535 0)).wellFormed = true := by
  simp only [Instr.wellFormed, List.length_replicate]; decide

theorem test_wf_sendc_too_long :
    (Instr.sendc 0 (List.replicate 65536 0)).wellFormed = false := by
  simp only [Instr.wellFormed, List.length_replicate]; decide

theorem test_wf_sendd_too_long :
    (Instr.sendd 0 (List.replicate 65536 0)).wellFormed = false := by
  simp only [Instr.wellFormed, List.length_replicate]; decide

theorem test_wf_dispimg_exact : (Instr.dispimg 2 1 [1, 2, 3, 4, 5, 6]).wellFormed = true := by decide

theorem test_wf_dispimg_short : (Instr.dispimg 2 1 [1, 2, 3, 4, 5]).wellFormed = false := by decide

theorem test_wf_dispimg_empty_not : (Instr.dispimg 0 0 [0]).wellFormed = false := by decide

/-! ## Decoding: one word of every row, from the formats of R91 and the opcodes of R95 -/

theorem test_decode_cvt565 :
    decode [0x01, 0x12, 0x34, 0x56] = .op (.cvt565 0x12 0x34 0x56) [] := by decide

theorem test_decode_sendc :
    decode [0x10, 0x01, 0x02, 0x00, 0x01, 0x2C, 0x50] = .op (.sendc 0x0102 [0x2C]) [0x50] := by decide

theorem test_decode_sendd :
    decode [0x11, 0x00, 0x01, 0x00, 0x02, 0xF8, 0x00] = .op (.sendd 1 [0xF8, 0x00]) [] := by decide

theorem test_decode_reset : decode [0x20] = .op .resetOp [] := by decide

theorem test_decode_init : decode [0x21] = .op .initOp [] := by decide

theorem test_decode_begin : decode [0x22] = .op .beginOp [] := by decide

theorem test_decode_setwin :
    decode [0x30, 0x00, 0x0A, 0x00, 0x14, 0x00, 0x32, 0x00, 0x3C] = .op (.setwin 10 20 50 60) [] := by
  decide

theorem test_decode_setwinf : decode [0x31] = .op .setwinf [] := by decide

theorem test_decode_clear :
    decode [0x40, 0x10, 0x20, 0x30] = .op (.clear 0x10 0x20 0x30) [] := by decide

theorem test_decode_fbwr :
    decode [0x41, 0x00, 0xEF, 0x01, 0x3F, 0x09, 0x08, 0x07] = .op (.fbwr 239 319 9 8 7) [] := by decide

theorem test_decode_fbrd :
    decode [0x42, 0x00, 0xEF, 0x01, 0x3F] = .op (.fbrd 239 319) [] := by decide

theorem test_decode_display : decode [0x50] = .op .display [] := by decide

theorem test_decode_dispimg :
    decode [0x51, 0x00, 0x02, 0x00, 0x01, 0xFF, 0x00, 0x00, 0x00, 0x00, 0xFF, 0x60] =
      .op (.dispimg 2 1 [255, 0, 0, 0, 0, 255]) [0x60] := by decide

theorem test_decode_query : decode [0x60, 0x0A] = .op (.query 0x0A) [] := by decide

/-- Illegal opcodes (R97): V-ERR-1 to V-ERR-3. -/
theorem test_decode_illegal :
    decode [0x00] = .illegal 0x00 ∧ decode [0xFF, 0x60] = .illegal 0xFF ∧
      decode [0x12] = .illegal 0x12 := by decide

/-- Truncated operations (R100). -/
theorem test_decode_truncated :
    decode [] = .truncated ∧ decode [0x30, 0, 1, 0, 2, 0, 3, 0] = .truncated ∧
      decode [0x11, 0, 0, 0, 2, 0xF8] = .truncated := by decide

/-- An opcode-table word: byte 0 is the low byte (spec/opcode_table.json). -/
theorem test_tableWord :
    decodeTableWord 8 0x22 = some .beginOp ∧
      decodeTableWord 32 0x56341201 = some (.cvt565 0x12 0x34 0x56) ∧
      decodeTableWord 8 0x30 = some (.setwin 0 0 0 0) ∧ decodeTableWord 8 0x10 = some (.sendc 0 []) ∧
      decodeTableWord 8 0x99 = none := by decide

/-- The placed operation is the one the next step runs. -/
theorem test_withFetchWord :
    step (State.reset.withFetchWord 32 0x56341201) =
      exec (.cvt565 0x12 0x34 0x56) (State.reset.withFetchWord 32 0x56341201) := by rfl

/-! ## The converter (V-CVT, V-DEC, V-ENC) -/

theorem test_cvt565_mixed : reply (.cvt565 0xAB 0xCD 0xEF) State.reset = some [⟨.ok, 0xAE7D⟩] := by
  decide

theorem test_cvt565_truncates : reply (.cvt565 0xF7 0xFB 0xF7) State.reset = some [⟨.ok, 0xF7DE⟩] := by
  decide

theorem test_decode565 : decode565 0xAE7D = (0xA8, 0xCC, 0xE8) := by decide

theorem test_encodeFrame_row_major :
    encodeFrame [0, 255, 0, 255, 255, 255, 0x12, 0x34, 0x56, 0, 0, 0] =
      [0x07, 0xE0, 0xFF, 0xFF, 0x11, 0xAA, 0x00, 0x00] := by decide

theorem test_encodeLanes_uneven :
    encodeLanes 3 [0, 255, 0, 255, 255, 255, 0x12, 0x34, 0x56, 0, 0, 0] =
      [0x07, 0xE0, 0xFF, 0xFF, 0x11, 0xAA, 0x00, 0x00] := by decide

/-! ## The framer (V-SEND, V-WT, V-RST) -/

/-- V-SEND-14. -/
theorem test_sendc_raw_command :
    reads State.trace (.sendc 0 [0x2C]) (panel 240 320 (oks 1)) = some [.dc .low, .xfer [0x2C]] ∧
      reads State.win (.sendc 0 [0x2C]) (panel 240 320 (oks 1)) = some .none := by decide

/-- V-WT-6. -/
theorem test_sendc_underrun :
    reads (fun t => (t.win, t.haz)) (.sendc 0 [0]) { panel 240 320 (oks 1) with win := .opened 4 } =
      some (.none, 1) := by decide

/-- V-SEND-16. -/
theorem test_sendd_chunk_one :
    reads State.trace (.sendd 1 [0xF8, 0x00]) (panel 240 320 (oks 2)) =
      some [.dc .high, .xfer [0xF8], .xfer [0x00]] := by decide

/-- V-WT-7. -/
theorem test_sendd_overrun :
    reads (fun t => (t.win, t.haz)) (.sendd 0 [1, 2, 3, 4])
      { panel 240 320 (oks 1) with win := .opened 2 } = some (.unknown, 2) := by decide

/-- V-SEND-5, the boundary of the default chunk. -/
theorem test_chunks_65 : (chunks 64 (List.replicate 65 7)).map List.length = [64, 1] := by decide

/-- V-RST-1. -/
theorem test_reset_pulse :
    reads (fun t => (t.trace, t.rst, t.lc)) .resetOp State.reset =
      some ([.rst .high, .wait 5, .rst .low, .wait 20, .rst .high, .wait 150],
        some .high, .reset) := by decide

/-- V-RST-4. -/
theorem test_reset_absent :
    reads (fun t => (t.trace, t.win, t.lc)) .resetOp { panelNoRst 240 320 [] with win := .opened 100 } =
      some ([], .opened 100, .reset) := by decide

/-! ## The sequencer and the window (V-INIT, V-WIN) -/

/-- V-INIT-2. -/
theorem test_init_body :
    reads (fun t => (t.trace, t.lc)) .initOp (panelBody [⟨0x3A, [0x55]⟩] (oks 4)) =
      some ([.dc .low, .xfer [0x3A], .dc .high, .xfer [0x55], .dc .low, .xfer [0x11], .wait 120,
        .dc .low, .xfer [0x29]], .ready) := by decide

/-- V-INIT-8. -/
theorem test_init_err :
    reads (fun t => (t.trace, t.lc, t.win, t.responses)) .initOp (panel 240 320 (errAt 0)) =
      some ([.dc .low, .xfer [0x11]], .constructed, .unknown, [⟨.transportError, 0⟩]) := by decide

/-- V-INIT-7. -/
theorem test_begin_no_reset_line :
    reads (fun t => (t.trace, t.lc)) .beginOp (panelNoRst 240 320 (oks 2)) =
      some ([.dc .low, .xfer [0x11], .wait 120, .dc .low, .xfer [0x29]], .ready) := by decide

/-- V-INIT-9. -/
theorem test_begin_err :
    reads (fun t => (t.trace, t.lc)) .beginOp (panel 240 320 (errAt 0)) =
      some ([.rst .high, .wait 5, .rst .low, .wait 20, .rst .high, .wait 150, .dc .low, .xfer [0x11]],
        .reset) := by decide

/-- V-WIN-1. -/
theorem test_setwin_events :
    reads (fun t => (t.trace, t.win)) (.setwin 10 20 50 60) (panel 240 320 (oks 5)) =
      some ([.dc .low, .xfer [0x2A], .dc .high, .xfer [0x00, 0x0A, 0x00, 0x32], .dc .low, .xfer [0x2B],
        .dc .high, .xfer [0x00, 0x14, 0x00, 0x3C], .dc .low, .xfer [0x2C]], .opened 3362) := by decide

/-- V-WIN-7. -/
theorem test_setwin_geometry :
    reads (fun t => (t.trace, t.responses)) (.setwin 0 0 240 0) (panel 240 320 (oks 5)) =
      some ([], [⟨.geometryError, 0⟩]) := by decide

/-- V-WIN-4. -/
theorem test_setwinf_window :
    reads State.win .setwinf (panel 240 320 (oks 5)) = some (.opened 153600) := by decide

/-- V-ERR-12. -/
theorem test_setwinf_err :
    reads (fun t => (t.trace, t.win, t.dc)) .setwinf (panel 240 320 (errAt 1)) =
      some ([.dc .low, .xfer [0x2A], .dc .high, .xfer [0x00, 0x00, 0x00, 0xEF]], .unknown,
        some .high) := by decide

/-! ## Frame buffer and display (V-FB, V-DISP) -/

/-- P3 of 95_test_vectors.md: CLEAR 0, 0, 255 on a 2×2 panel. -/
theorem test_clear_fills :
    reads (fun t => t.fb.map Prod.snd) (.clear 0 0 255) (panel 2 2 []) =
      some [0, 0, 255, 0, 0, 255, 0, 0, 255, 0, 0, 255] := by decide

/-- V-FB-12: CLEAR stores RGB888 unquantized. -/
theorem test_clear_unquantized :
    reads (fun t => t.fb.map Prod.snd) (.clear 7 3 7) (panel 1 1 []) = some [7, 3, 7] := by decide

/-- V-FB-7, the last pixel. -/
theorem test_fbwr_last_pixel :
    reads State.fb (.fbwr 239 319 9 9 9) State.reset =
      some [(230397, 9), (230398, 9), (230399, 9)] := by decide

/-- V-FB-8. -/
theorem test_fbwr_out_of_range :
    reads (fun t => (t.fb, t.responses)) (.fbwr 240 0 1 1 1) State.reset =
      some ([], [⟨.geometryError, 0⟩]) := by decide

/-- V-FB-5. -/
theorem test_fbrd_packs :
    reply (.fbrd 1 0) { State.reset with fb := [(3, 0xFF), (4, 0), (5, 0)] } =
      some [⟨.ok, 0xFF0000⟩] := by decide

/-- V-FB-10. -/
theorem test_fbrd_out_of_range : reply (.fbrd 240 0) State.reset = some [⟨.geometryError, 0⟩] := by
  decide

/-- The 2×2 frame buffer of P3. -/
def fbP3 : List Host.Cell :=
  [(0, 0), (1, 0), (2, 255), (3, 255), (4, 0), (5, 0), (6, 0), (7, 0), (8, 255), (9, 0), (10, 0),
   (11, 255)]

/-- P3's DISPLAY. -/
theorem test_display_pixels :
    reads (fun t => (t.trace.drop 10, t.win)) .display { panel 2 2 (oks 6) with fb := fbP3 } =
      some ([.dc .high, .xfer [0x00, 0x1F, 0xF8, 0x00, 0x00, 0x1F, 0x00, 0x1F]], .opened 0) := by decide

/-- After an err in the window no pixel is sent. -/
theorem test_display_err :
    reads (fun t => (t.trace.length, t.win)) .display (panel 2 2 (errAt 4)) =
      some (10, .unknown) := by decide

/-- V-DISP-6. -/
theorem test_dispimg_pixels :
    reads (fun t => (t.trace.drop 10, t.win)) (.dispimg 2 1 [255, 0, 0, 0, 0, 255])
      (panel 2 1 (oks 6)) =
      some ([.dc .high, .xfer [0xF8, 0x00, 0x00, 0x1F]], .opened 0) := by decide

/-- V-DISP-7. -/
theorem test_dispimg_mismatch :
    reads (fun t => (t.trace, t.opPos, t.responses)) (.dispimg 1 1 [1, 2, 3]) (panel 2 1 []) =
      some ([], 8, [⟨.geometryError, 0⟩]) := by decide

/-- V-Q-9: the level of a line never written. -/
theorem test_query_dc_x : reply (.query 0x08) State.reset = some [⟨.ok, 2⟩] := by decide

/-- V-Q-14. -/
theorem test_query_unlisted : reply (.query 0x0B) State.reset = some [⟨.illegalOp, 0⟩] := by decide

/-! ## Steps on the stream (V-ERR) -/

/-- V-ERR-3: one byte is consumed. -/
theorem test_step_illegal :
    (nextOf (step (State.reset.supply [0x12, 0x20]))).map (fun t => (t.opPos, t.responses)) =
      some (1, [⟨.illegalOp, 0⟩]) := by decide

/-- V-ERR-6: CONFIG_ERROR outranks ILLEGAL_OP. -/
theorem test_step_illegal_dead :
    (nextOf (step (deadBlock.supply [0xFF]))).map (fun t => (t.opPos, t.responses)) =
      some (1, [⟨.configError, 0⟩]) := by decide

/-- R100: with nothing supplied the block waits. -/
theorem test_step_waits : step State.reset = .next State.reset := by rfl

/-! ## The premise Initialised (R256) -/

/-- A run that shows a frame and has an image turned away, then BEGIN, then shows a frame again. -/
def shownTwice : List (Instr × Response) :=
  [(.display, ⟨.ok, 0⟩), (.dispimg 0 0 [], ⟨.geometryError, 0⟩), (.beginOp, ⟨.ok, 0⟩),
   (.display, ⟨.ok, 0⟩)]

/-- What comes before BEGIN matters only where the claim reads it. -/
theorem test_initialised_of_what_is_read :
    Initialised [3] shownTwice ∧ ¬ Initialised [0, 3] shownTwice ∧ ¬ Initialised [1, 3] shownTwice := by
  unfold Initialised; decide

/-- A BEGIN that met a transport error initialises nothing. -/
theorem test_initialised_needs_ok :
    ¬ Initialised [1] [(.beginOp, ⟨.transportError, 0⟩), (.display, ⟨.ok, 0⟩)] := by
  unfold Initialised; decide

/-! ## Witnesses: for each obligation with hypotheses, values that meet them, clause by clause -/

theorem witness_DecodeOfEncode :
    (Instr.sendc 0 []).wellFormed = true ∧ (Instr.sendd 1 [0xFF]).wellFormed = true ∧
      (Instr.dispimg 0 65535 []).wellFormed = true ∧ (Instr.query 0xFF).wellFormed = true := by decide

theorem witness_EncodeOfDecode :
    decode [0x51, 0, 1, 0, 1, 7, 8, 9, 0x50] = .op (.dispimg 1 1 [7, 8, 9]) [0x50] ∧
      decode [0x10, 0xFF, 0xFF, 0, 0] = .op (.sendc 0xFFFF []) [] := by decide

theorem witness_IllegalEncodingsConsumeOneByte :
    let legal : List Byte :=
      [0x01, 0x10, 0x11, 0x20, 0x21, 0x22, 0x30, 0x31, 0x40, 0x41, 0x42, 0x50, 0x51, 0x60]
    (0x00 : Byte) ∉ legal ∧ (0x61 : Byte) ∉ legal ∧ (0xFF : Byte) ∉ legal ∧
      ((panel 2 1 []).supply [0x61, 0x50]).stream.drop ((panel 2 1 []).supply [0x61, 0x50]).opPos =
        [0x61, 0x50] ∧
      (deadBlock.supply [0x00]).stream.drop (deadBlock.supply [0x00]).opPos = [0x00] ∧
      (0x0A : Byte) < 0x0B ∧ (0x0A : Byte) < 0xFF := by decide

theorem witness_StepRunsDecodedOperation :
    decode ((State.reset.supply [0x60, 0x0A, 0x31]).stream.drop
      (State.reset.supply [0x60, 0x0A, 0x31]).opPos) = .op (.query 0x0A) [0x31] := by decide

theorem witness_PositionAdvancesByLength :
    fetch (State.reset.supply [0x99]) = .illegal 0x99 ∧ fetch (deadBlock.supply [0]) = .illegal 0 := by
  decide

/-- One byte missing at the end; nothing supplied yet; a payload not begun. -/
theorem witness_TruncatedOperationWaits :
    (∀ x ∈ [(Instr.fbrd 1 2, ([0x42, 0, 1, 0] : List Byte), ([2] : List Byte)),
        (.display, [], [0x50]), (.sendd 0 [9], [0x11, 0, 0, 0, 1], [9])],
      x.1.wellFormed = true ∧
        (State.reset.supply x.2.1).opPos ≤ (State.reset.supply x.2.1).stream.length ∧ x.2.2 ≠ [] ∧
        (State.reset.supply x.2.1).stream.drop (State.reset.supply x.2.1).opPos ++ x.2.2 =
          encode x.1) := by decide

/-- The smallest and the largest panel, without a reset line and with one; and one too wide. -/
theorem witness_ConstructionLeavesTable :
    (¬ ({ Params.standard with width := 65536 } : Params).width ≤ 65535) ∧ (∀ x ∈ [({ Params.standard with width := 1, height := 1, hasRst := false },
          (⟨true, false, true⟩ : Platform)),
        ({ Params.standard with width := 65535, height := 65535 }, ⟨true, true, true⟩)],
      (1 ≤ x.1.width ∧ x.1.width ≤ 65535) ∧ (1 ≤ x.1.height ∧ x.1.height ≤ 65535) ∧
        x.2.dcLineValid = true ∧ (x.1.hasRst = true → x.2.rstLineValid = true) ∧
        x.2.busOpens = true) := by decide

/-- Each cause of a failed construction alone (60_exceptions.md R211). -/
theorem witness_FailedConstructionIsDead :
    (∀ x ∈ [({ Params.standard with width := 0 }, (⟨true, true, true⟩ : Platform)),
        ({ Params.standard with width := 65536 }, ⟨true, true, true⟩),
        ({ Params.standard with height := 0 }, ⟨true, true, true⟩),
        ({ Params.standard with height := 65536 }, ⟨true, true, true⟩),
        (Params.standard, ⟨false, true, true⟩), (Params.standard, ⟨true, false, true⟩),
        (Params.standard, ⟨true, true, false⟩)],
      x.1.width < 1 ∨ 65535 < x.1.width ∨ x.1.height < 1 ∨ 65535 < x.1.height ∨
        x.2.dcLineValid = false ∨ (x.1.hasRst = true ∧ x.2.rstLineValid = false) ∨
        x.2.busOpens = false) := by decide

theorem witness_DeadBlockDoesNothing :
    deadBlock.dead = true ∧ (deadBlock.supply [0xFF]).dead = true ∧
      fetch (deadBlock.supply [0xFF]) = .illegal 0xFF ∧
      nextOf (step (deadBlock.supply [0xFF])) ≠ none := by decide

/-- CONFIG_ERROR, ILLEGAL_OP and GEOMETRY_ERROR each occur. -/
theorem witness_PreciseErrorsHaveNoEffect :
    reply .display deadBlock = some (deadBlock.responses ++ [⟨.configError, 0⟩]) ∧
      reply (.query 0x0B) State.reset = some (State.reset.responses ++ [⟨.illegalOp, 0⟩]) ∧
      reply (.fbrd 0 320) State.reset = some (State.reset.responses ++ [⟨.geometryError, 0⟩]) := by
  decide

/-- Either side of each boundary of R212. -/
theorem witness_GeometryErrorCases :
    State.reset.dead = false ∧
      (∀ i ∈ [Instr.setwin 0 0 240 0, .setwin 0 0 0 320, .setwin 1 0 0 0, .setwin 0 1 0 0,
          .fbwr 240 0 1 1 1, .fbwr 0 320 1 1 1, .fbrd 240 0, .fbrd 0 320, .dispimg 240 0 [],
          .dispimg 0 320 []],
        reply i State.reset = some [⟨.geometryError, 0⟩]) ∧
      (∀ i ∈ [Instr.setwin 239 319 239 319, .fbwr 239 319 1 1 1, .fbrd 239 319],
        reply i (panel 240 320 (oks 5)) ≠ some [⟨.geometryError, 0⟩]) := by decide

/-- Each of the eight senders returns TRANSPORT_ERROR where the first answer is err, QUERY ILLEGAL_OP. -/
theorem witness_StatusesOfOperations :
    (panel 1 1 (errAt 0)).dead = false ∧
      (∀ i ∈ [Instr.sendc 0 [1], .sendd 0 [1], .initOp, .beginOp, .setwin 0 0 0 0, .setwinf, .display,
          .dispimg 1 1 [1, 2, 3]],
        reply i (panel 1 1 (errAt 0)) =
          some ((panel 1 1 (errAt 0)).responses ++ [⟨.transportError, 0⟩])) ∧
      reply (.query 0xFF) (panel 1 1 []) = some ((panel 1 1 []).responses ++ [⟨.illegalOp, 0⟩]) := by
  decide

/-- A colour that keeps the bits of a sample and is not the test decoder's. -/
theorem witness_DecodedSampleReencodes :
    (∀ k < 5, (0xAF : Byte).getLsbD (3 + k) = (0xAE7D : U16).getLsbD (11 + k)) ∧
      (∀ k < 6, (0xCF : Byte).getLsbD (2 + k) = (0xAE7D : U16).getLsbD (5 + k)) ∧
      ∀ k < 5, (0xEF : Byte).getLsbD (3 + k) = (0xAE7D : U16).getLsbD k := by decide

theorem witness_Cvt565Converts : State.reset.dead = false ∧ deadBlock.dead = true := by decide

/-- The last pixel of a 2×3 image. -/
theorem witness_FrameEncoderIsDoubleLoop : 1 < 2 ∧ 2 < 3 := by decide

/-- No byte, one full chunk, a chunk and one byte. -/
theorem witness_SendChunks :
    1 ≤ 64 ∧ BusOk (panel 1 1 []) (chunks 64 []).length ∧
      BusOk (panel 1 1 (oks 1)) (chunks 64 (List.replicate 64 0)).length ∧
      BusOk (panel 1 1 (oks 2)) (chunks 64 (List.replicate 65 0)).length ∧
      0 + 1 < (chunks 64 (List.replicate 65 0)).length ∧
      0 < (chunks 64 (List.replicate 64 0)).length := by
  unfold BusOk; decide

/-- A dead block; all answers ok; an err at the first and at the last transaction. -/
theorem witness_SendcSendsCommandBytes :
    deadBlock.dead = true ∧ (panel 1 1 (oks 2)).dead = false ∧
      BusOk (panel 1 1 (oks 2)) (xferCount (sendEvents [1, 2, 3] false 2)) ∧
      0 < xferCount (sendEvents [1, 2, 3] false 2) ∧ BusErrAt (panel 1 1 (errAt 0)) 0 ∧
      1 < xferCount (sendEvents [1, 2, 3] false 2) ∧ BusErrAt (panel 1 1 (errAt 1)) 1 := by
  unfold BusErrAt BusOk; decide

theorem witness_SenddSendsDataBytes :
    deadBlock.dead = true ∧ (panel 1 1 (oks 2)).dead = false ∧
      BusOk (panel 1 1 (oks 2)) (xferCount (sendEvents (List.replicate 65 0) true 64)) ∧
      0 < xferCount (sendEvents (List.replicate 65 0) true 64) ∧ BusErrAt (panel 1 1 (errAt 0)) 0 ∧
      1 < xferCount (sendEvents (List.replicate 65 0) true 64) ∧
      BusErrAt (panel 1 1 (errAt 1)) 1 := by
  unfold BusErrAt BusOk; decide

theorem witness_EmptySendUsesNoBus : (panel 1 1 (errAt 0)).dead = false := by decide

theorem witness_ResetPulsesLine :
    deadBlock.dead = true ∧ State.reset.dead = false ∧ State.reset.cfg.hasRst = true ∧
      (panelNoRst 1 1 []).dead = false ∧ (panelNoRst 1 1 []).cfg.hasRst = false := by decide

theorem witness_ChunkingIsPanelEquivalent : 1 ≤ 1 ∧ 1 ≤ 65535 := by decide

/-- The third of four transactions of a body with one data list. -/
theorem witness_InitIssuesTable :
    deadBlock.dead = true ∧ (panelBody [⟨0x3A, [0x55]⟩] (oks 4)).dead = false ∧
      xferCount (initEvents (panelBody [⟨0x3A, [0x55]⟩] []).cfg) = 4 ∧
      BusOk (panelBody [⟨0x3A, [0x55]⟩] (oks 4)) 4 ∧
      BusErrAt (panelBody [⟨0x3A, [0x55]⟩] (errAt 0)) 0 ∧
      BusErrAt (panelBody [⟨0x3A, [0x55]⟩] (errAt 3)) 3 := by
  unfold BusErrAt BusOk; decide

/-- The last pixel's window is valid, one further is not, and reversed bounds are not. -/
theorem witness_SetwinOpensWindow :
    let valid (x0 y0 x1 y1 : U16) : Prop := x0.toNat ≤ x1.toNat ∧ (x1.toNat : Int) ≤ (240 : Int) - 1 ∧
      y0.toNat ≤ y1.toNat ∧ (y1.toNat : Int) ≤ (320 : Int) - 1
    deadBlock.dead = true ∧ (panel 240 320 (oks 5)).dead = false ∧
      (panel 240 320 (oks 5)).cfg.width = 240 ∧ (panel 240 320 (oks 5)).cfg.height = 320 ∧
      valid 0 0 239 319 ∧ valid 239 319 239 319 ∧ ¬ valid 0 0 240 0 ∧ ¬ valid 0 0 0 320 ∧
      ¬ valid 1 0 0 0 ∧ ¬ valid 0 1 0 0 ∧ BusOk (panel 240 320 (oks 5)) 5 ∧
      BusErrAt (panel 240 320 (errAt 0)) 0 ∧ BusErrAt (panel 240 320 (errAt 4)) 4 := by
  unfold BusErrAt BusOk; decide

/-- The smallest panel and the default one. -/
theorem witness_SetwinfOpensFullPanel :
    1 ≤ (panel 1 1 []).cfg.width ∧ 1 ≤ (panel 1 1 []).cfg.height ∧ deadBlock.dead = true ∧
      1 ≤ deadBlock.cfg.width ∧ (panel 1 1 (oks 5)).dead = false ∧ BusOk (panel 1 1 (oks 5)) 5 ∧
      BusErrAt (panel 1 1 (errAt 0)) 0 ∧ BusErrAt (panel 1 1 (errAt 4)) 4 := by
  unfold BusErrAt BusOk; decide

/-- Each of the four opens a window where none was open, from NONE or UNKNOWN. -/
theorem witness_WindowsOpenOnlyBySequence :
    reply (.setwin 0 0 0 0) (panel 1 1 (oks 5)) = some ((panel 1 1 (oks 5)).responses ++ [⟨.ok, 0⟩]) ∧
      reads State.win (.setwin 0 0 0 0) (panel 1 1 (oks 5)) = some (.opened 2) ∧
      reads State.win .setwinf { panel 1 1 (oks 5) with win := .unknown } = some (.opened 2) ∧
      reads State.win .display { panel 1 1 (oks 6) with fb := [(0, 1), (1, 1), (2, 1)] } =
        some (.opened 0) ∧
      reads State.win (.dispimg 1 1 [1, 2, 3]) (panel 1 1 (oks 6)) = some (.opened 0) ∧
      (panel 1 1 (oks 5)).win = .none := by decide

theorem witness_BeginResetsAndInitialises :
    deadBlock.dead = true ∧ (panel 1 1 (oks 2)).dead = false ∧
      xferCount (initEvents (panel 1 1 []).cfg) = 2 ∧ BusOk (panel 1 1 (oks 2)) 2 ∧
      BusErrAt (panel 1 1 (errAt 0)) 0 ∧ BusErrAt (panelNoRst 1 1 (errAt 1)) 1 ∧
      (panel 1 1 []).cfg.hasRst = true ∧ (panelNoRst 1 1 []).cfg.hasRst = false := by
  unfold BusErrAt BusOk; decide

/-- The last pixel, and the first address past the frame buffer. -/
theorem witness_ClearFillsFrameBuffer :
    deadBlock.dead = true ∧ (panel 2 3 []).dead = false ∧ 1 < (panel 2 3 []).cfg.width ∧
      2 < (panel 2 3 []).cfg.height ∧
      3 * (panel 2 3 []).cfg.width * (panel 2 3 []).cfg.height ≤ 18 := by decide

theorem witness_ClearIsItsLoop :
    Mem.wf (panel 2 2 []).fb ∧ Mem.wf ({ panel 2 2 [] with fb := fbP3 } : State).fb := by decide

/-- The last pixel, the first column out of range, the first row out of range; an address on either side
of the pixel. -/
theorem witness_FbwrWritesPixel :
    deadBlock.dead = true ∧ State.reset.dead = false ∧
      (239 : U16).toNat < State.reset.cfg.width ∧ (319 : U16).toNat < State.reset.cfg.height ∧
      State.reset.cfg.width ≤ (240 : U16).toNat ∧ State.reset.cfg.height ≤ (320 : U16).toNat ∧
      fbAddr 240 239 319 0 = 230397 ∧ 230396 < 230397 ∧ 230397 + 2 < 230400 := by decide

theorem witness_FbrdReadsPixel :
    deadBlock.dead = true ∧ State.reset.dead = false ∧
      (239 : U16).toNat < State.reset.cfg.width ∧ (319 : U16).toNat < State.reset.cfg.height ∧
      State.reset.cfg.width ≤ (240 : U16).toNat ∧ State.reset.cfg.height ≤ (320 : U16).toNat := by decide

/-- The same pixel, and its neighbour in the next row. -/
theorem witness_FbrdSeesFbwr :
    (panel 2 2 []).dead = false ∧ (1 : U16).toNat < (panel 2 2 []).cfg.width ∧
      (0 : U16).toNat < (panel 2 2 []).cfg.height ∧ (1 : U16).toNat < (panel 2 2 []).cfg.height ∧
      ((1, 1) : U16 × U16) ≠ (1, 0) := by decide

/-- The last channel of the last pixel, and the same address reached twice. -/
theorem witness_PixelAddressesDistinct :
    239 < Params.standard.width ∧ 319 < Params.standard.height ∧ 2 < 3 ∧
      fbAddr Params.standard.width 239 319 2 = 230399 ∧ 0 < Params.standard.width ∧
      0 < Params.standard.height ∧ 0 < 3 := by decide

/-- A 1×1 panel: six transactions. -/
theorem witness_DisplaySendsFrameBuffer :
    1 ≤ (panel 1 1 []).cfg.width ∧ 1 ≤ (panel 1 1 []).cfg.height ∧ deadBlock.dead = true ∧
      1 ≤ deadBlock.cfg.width ∧ 1 ≤ deadBlock.cfg.height ∧ (panel 1 1 (oks 6)).dead = false ∧
      5 + (2 * (panel 1 1 []).cfg.width * (panel 1 1 []).cfg.height + 63) / 64 = 6 ∧
      BusOk (panel 1 1 (oks 6)) 6 ∧ BusErrAt (panel 1 1 (errAt 0)) 0 ∧
      BusErrAt (panel 1 1 (errAt 5)) 5 := by
  unfold BusErrAt BusOk; decide

/-- A payload that matches the panel, and one that does not. -/
theorem witness_DispimgSendsPayload :
    1 ≤ (panel 2 1 []).cfg.width ∧ 1 ≤ (panel 2 1 []).cfg.height ∧
      (Instr.dispimg 2 1 [255, 0, 0, 0, 0, 255]).wellFormed = true ∧
      (2 : U16).toNat = (panel 2 1 []).cfg.width ∧ (1 : U16).toNat = (panel 2 1 []).cfg.height ∧
      (Instr.dispimg 1 1 [1, 2, 3]).wellFormed = true ∧
      (1 : U16).toNat ≠ (panel 2 1 []).cfg.width ∧ (0 : U16).toNat ≠ (panel 2 1 []).cfg.height ∧
      (panel 2 1 (oks 6)).dead = false ∧ deadBlock.dead = true ∧
      xferCount (windowEvents (panel 2 1 []).cfg 0 0 1 0 ++
        sendEvents (encodeImage (pixelOf [255, 0, 0, 0, 0, 255] 2) 2 1) true 64) = 6 ∧
      BusOk (panel 2 1 (oks 6)) 6 ∧ BusErrAt (panel 2 1 (errAt 0)) 0 ∧
      BusErrAt (panel 2 1 (errAt 5)) 5 := by
  unfold BusErrAt BusOk; decide

/-- Every listed index and the first that is not. -/
theorem witness_QueryReadsItems :
    deadBlock.dead = true ∧ State.reset.dead = false ∧
      (∀ k < 11, (queryItem State.reset (BitVec.ofNat 8 k)).isSome = true) ∧
      queryItem State.reset 0x0B = none ∧ queryItem State.reset 0xFF = none := by decide

theorem witness_LifecycleGatesNothing :
    Instr.display ≠ .query 0x04 ∧ Instr.query 0x05 ≠ .query 0x04 := by decide

theorem witness_LinesFollowTrace :
    reads State.trace .resetOp (panel 1 1 []) =
      some ([.rst .high, .wait 5, .rst .low, .wait 20, .rst .high, .wait 150]) ∧
      Event.rst .low ∈ ([.rst .high, .rst .low] : List Event) := by decide

/-- A TRANSPORT_ERROR response, another response, and an event list with a transaction. -/
theorem witness_TransportErrorTellsAnswers :
    reply .setwinf (panel 1 1 (errAt 2)) = some [⟨.transportError, 0⟩] ∧
      reply .setwinf (panel 1 1 (oks 5)) = some [⟨.ok, 0⟩] ∧
      Event.xfer [0x2A] ∈ windowEvents (panel 1 1 []).cfg 0 0 0 0 := by decide

theorem witness_NoOperationResetsBlock :
    nextOf (step ((panel 1 1 (oks 2)).supply [0x22])) ≠ none ∧
      nextOf (exec .resetOp State.reset) ≠ none ∧ nextOf (exec .initOp (panel 1 1 (oks 2))) ≠ none ∧
      nextOf (exec .beginOp (panel 1 1 (oks 2))) ≠ none := by decide

/-- A step that runs an operation, one that meets an illegal opcode, one that waits. -/
theorem witness_StepOnlyAppends :
    nextOf (step ((panel 1 1 (oks 5)).supply [0x31])) ≠ none ∧
      nextOf (step (State.reset.supply [0xFF])) ≠ none ∧ nextOf (step State.reset) ≠ none := by decide

/-- A 2×2 panel with a written frame buffer, a window open and SETWINF in the stream. -/
def busyPanel : State :=
  { panel 2 2 (oks 5) with fb := fbP3, win := .opened 8, stream := [0x31], lc := .ready }

/-- It meets the invariant, and its step is a next state. -/
theorem witness_StepKeepsInvariant : busyPanel.Inv ∧ nextOf (step busyPanel) ≠ none := by
  refine ⟨⟨?_, ?_, ?_, ?_, ?_, ?_, ?_, ?_, ?_, ?_, ?_, ?_, ?_, ?_, ?_⟩, by decide⟩
  case refine_7 => intro rem h; have := Window.opened.inj h; omega
  case refine_10 => intro bs h; simp [busyPanel, panel, State.constructed] at h
  all_goals decide

theorem witness_SupplyKeepsInvariant :
    ({ panelNoRst 1 1 [] with opPos := 1, stream := [0xFF], responses := [⟨.illegalOp, 0⟩] } :
      State).Inv := by
  refine ⟨?_, ?_, ?_, ?_, ?_, ?_, ?_, ?_, ?_, ?_, ?_, ?_, ?_, ?_, ?_⟩
  case refine_7 => intro rem h; simp [panelNoRst, State.constructed] at h
  case refine_10 => intro bs h; simp [panelNoRst, State.constructed] at h
  all_goals decide

end Sys2Proof.Tests
end

section
/-! SUPPORT and PROOF. What the panel receives from a concatenation of traces and from a send
(00_scope.md R9). -/

namespace Sys2Proof.Machine

/-! ## The panel's stream -/

/-- The panel reads the second trace at the level the first one leaves. -/
theorem panelItems_append (d : Option Level) (t u : List Event) :
    panelItems d (t ++ u) = panelItems d t ++ panelItems (lastDc d t) u := by
  induction t generalizing d with
  | nil => rfl
  | cons e t ih => cases e <;> simp [panelItems, lastDc, ih]

/-- The bounds between transactions are not in what the panel receives. -/
theorem panelItems_map_xfer (d : Option Level) (cs : List (List Byte)) :
    panelItems d (cs.map .xfer) = cs.flatten.map (.byte d) := by
  induction cs with
  | nil => rfl
  | cons c cs ih => simp [panelItems, ih]

/-- A send gives the panel each byte once, in order, at the send's own level. -/
theorem panelItems_sendEvents (d : Option Level) (bs : List Byte) (isData : Bool) {c : Nat}
    (hc : 1 ≤ c) :
    panelItems d (sendEvents bs isData c) = bs.map (.byte (some (dcLevel isData))) := by
  rw [sendEvents, panelItems, panelItems_map_xfer, chunks_flatten hc]

theorem lastDc_sendEvents (d : Option Level) (bs : List Byte) (isData : Bool) (c : Nat) :
    lastDc d (sendEvents bs isData c) = some (dcLevel isData) := by
  rw [sendEvents, lastDc, lastDc_map_xfer]

/-- The send's part of any surrounding trace, and the level after it, have no chunk size in them. -/
theorem panelItems_around_sendEvents (d : Option Level) (t u : List Event) (bs : List Byte)
    (isData : Bool) {c : Nat} (hc : 1 ≤ c) :
    panelItems d (t ++ sendEvents bs isData c ++ u) =
      panelItems d t ++ bs.map (.byte (some (dcLevel isData))) ++
        panelItems (some (dcLevel isData)) u := by
  rw [panelItems_append, panelItems_append, panelItems_sendEvents _ _ _ hc, lastDc_append,
    lastDc_sendEvents]

/-- Settles O28: both traces give the panel the items of `panelItems_around_sendEvents`. -/
theorem chunkingIsPanelEquivalent : Obligations.ChunkingIsPanelEquivalent := by
  intro t u bs isData c c' hc hc'
  refine ⟨?_, fun d => panelItems_sendEvents d bs isData hc⟩
  rw [panelEquivalent, panelItems_around_sendEvents _ _ _ _ _ hc,
    panelItems_around_sendEvents _ _ _ _ _ hc']

end Sys2Proof.Machine
end

section
/-! SUPPORT and PROOF. What an operation keeps and what it appends (10_state.md), read off `exec_effect`
and `step_cases`, and from it the invariant of every step. -/

namespace Sys2Proof.Machine

/-! ## What an effect keeps -/

section
variable {s : State} {f : Flow} {evs : List Event}

/-- A stretch that reaches the bus leaves the frame buffer. -/
theorem Reaches.fb {bound : Nat} {lim : Option Nat} (h : Reaches bound lim s f evs) :
    f.state.fb = s.fb := (congrArg State.fb h.frame :)

/-- Beside its events, an effect writes only the lines, the lifecycle, the step index, the window, the
hazards and the frame buffer. -/
theorem Effect.frame (h : Effect s f evs) : f.state = { s.performs evs with
    dc := f.state.dc, rst := f.state.rst, lc := f.state.lc, seqIdx := f.state.seqIdx,
    win := f.state.win, haz := f.state.haz, fb := f.state.fb } := by
  cases h with
  | bus h f evs lim hr hl hlc hseq =>
    rw [hr.fb]
    exact hr.frame
  | _ => simp

theorem Effect.cfg (h : Effect s f evs) : f.state.cfg = s.cfg := (congrArg State.cfg h.frame :)

theorem Effect.stream (h : Effect s f evs) : f.state.stream = s.stream :=
  (congrArg State.stream h.frame :)

theorem Effect.opPos (h : Effect s f evs) : f.state.opPos = s.opPos :=
  (congrArg State.opPos h.frame :)

theorem Effect.busOpen (h : Effect s f evs) : f.state.busOpen = s.busOpen :=
  (congrArg State.busOpen h.frame :)

theorem Effect.dead_eq (h : Effect s f evs) : f.state.dead = s.dead :=
  (congrArg State.dead h.frame :)

theorem Effect.responses (h : Effect s f evs) : f.state.responses = s.responses :=
  (congrArg State.responses h.frame :)

theorem Effect.xfers (h : Effect s f evs) : f.state.xfers = s.xfers + xferCount evs :=
  (congrArg State.xfers h.frame :)

/-- The frame buffer's storage stays canonical. -/
theorem Effect.fb_wf (h : Effect s f evs) (hs : Mem.wf s.fb) : Mem.wf f.state.fb := by
  cases h with
  | stores h m hm hr => exact hm hs
  | bus h f evs lim hr hl hlc hseq => rwa [hr.fb]
  | _ => exact hs

/-- What is stored beside the old bytes has an address of the frame buffer (20_memory.md R61). -/
theorem Effect.fb_range (h : Effect s f evs) {c : Host.Cell} (hc : c ∈ f.state.fb) :
    c.1 < s.cfg.fbSize ∨ c ∈ s.fb := by
  cases h with
  | stores h m hm hr => exact hr c hc
  | bus h f evs lim hr hl hlc hseq =>
    rw [hr.fb] at hc
    exact .inr hc
  | _ => exact .inr hc

/-- No effect ends in INITIALIZED unless it began there (10_state.md R37). -/
theorem Effect.lc (h : Effect s f evs) :
    f.state.lc = s.lc ∨ f.state.lc = .reset ∨ f.state.lc = .ready := by
  cases h with
  | bus h f evs lim hr hl hlc hseq => exact hlc
  | _ => exact .inl rfl

theorem Effect.seqIdx (h : Effect s f evs) :
    f.state.seqIdx = s.seqIdx ∨ f.state.seqIdx ≤ (initTable s.cfg).length := by
  cases h with
  | bus h f evs lim hr hl hlc hseq => exact hseq
  | _ => exact .inl rfl

/-- The range of `rem` (10_state.md R41): a window only shrinks, or is opened on a panel of valid size. -/
theorem Effect.win_range (h : Effect s f evs) (hsize : s.dead = false → s.cfg.sizeOk = true)
    (hwin : ∀ rem, s.win = .opened rem → rem ≤ 2 * 65535 * 65535) (rem : Nat)
    (hrem : f.state.win = .opened rem) : rem ≤ 2 * 65535 * 65535 := by
  cases h with
  | bus h f evs lim hr hl hlc hseq =>
    rcases hr.win rem hrem with ⟨q, hq, hle⟩ | ⟨q, hq, hle⟩
    · exact hle.trans (hwin q hq)
    · exact hle.trans (hl q hq (hsize h))
  | _ => exact hwin rem hrem

theorem Effect.xfer_size (h : Effect s f evs) {bs : List Byte} (hb : Event.xfer bs ∈ evs) :
    1 ≤ bs.length ∧ bs.length ≤ 65535 := by
  cases h with
  | bus h f evs lim hr hl hlc hseq => exact hr.size bs hb
  | _ => simp at hb

theorem Effect.events_of_dead (h : Effect s f evs) (hd : s.dead = true) : evs = [] := by
  cases h with
  | bus h f evs lim hr hl hlc hseq => simp [hd] at h
  | _ => rfl

end

/-- RESULT is 0 on an error (10_state.md R32, 60_exceptions.md R217). -/
theorem Flow.response_result_of_error (f : Flow) (v : U64) (h : (f.response v).status ≠ .ok) :
    (f.response v).result = 0 := by
  cases f with
  | go s => exact absurd rfl h
  | stop e s => rfl

theorem Flow.response_zero_result (f : Flow) : (f.response 0).result = 0 := by cases f <;> rfl

/-! ## The invariant of every step -/

/-- Completing an operation whose bytes are all there keeps the invariant; what only `exec` knows, that
nothing else than RESET and BEGIN writes the reset line, is the premise `hrst`. -/
theorem Effect.finish_inv {s : State} {f : Flow} {evs : List Event} (h : Effect s f evs)
    (hs : s.Inv) (n : Nat) (v : U64) (hn : s.opPos + n ≤ s.stream.length)
    (hrst : s.cfg.hasRst = false → (finish n v f).rst = s.rst) : (finish n v f).Inv := by
  obtain ⟨htrace, hlastRst, hlastDc⟩ := h.trace
  constructor
  case size => simpa [h.cfg, h.dead_eq] using hs.size
  case bus => simpa [h.busOpen, h.dead_eq] using hs.bus
  case fbForm => exact h.fb_wf hs.fbForm
  case fbRange =>
    intro c hc
    rw [finish_cfg, h.cfg]
    exact (h.fb_range hc).elim id (hs.fbRange c)
  case rstAbsent =>
    intro hr
    rw [finish_cfg, h.cfg] at hr
    exact (hrst hr).trans (hs.rstAbsent hr)
  case lcSettled =>
    rw [finish_lc]
    rcases h.lc with hlc | hlc | hlc <;> simp [hlc, hs.lcSettled]
  case winRange => exact h.win_range hs.size hs.winRange
  case dcLast => rw [finish_dc, finish_trace, hlastDc, htrace, lastDc_append, ← hs.dcLast]
  case rstLast => rw [finish_rst, finish_trace, hlastRst, htrace, lastRst_append, ← hs.rstLast]
  case xferSize =>
    intro bs hb
    rw [finish_trace, htrace] at hb
    exact (List.mem_append.mp hb).elim (hs.xferSize bs) h.xfer_size
  case position => rwa [finish_opPos, finish_stream, h.opPos, h.stream]
  case seqRange =>
    rw [finish_seqIdx, finish_cfg, h.cfg]
    rcases h.seqIdx with hseq | hseq
    · exact hseq ▸ hs.seqRange
    · exact hseq
  case answered => rw [finish_xfers, finish_trace, h.xfers, htrace, xferCount_append, hs.answered]
  case errorResult =>
    intro r hr
    rw [finish_responses, h.responses] at hr
    rcases List.mem_append.mp hr with hr | hr
    · exact hs.errorResult r hr
    · rw [List.mem_singleton.mp hr]
      exact f.response_result_of_error v
  case deadQuiet =>
    intro hd
    rw [finish_dead, h.dead_eq] at hd
    rw [finish_trace, htrace, h.events_of_dead hd, hs.deadQuiet hd, List.append_nil]

/-- Settles O52: a step waits, or completes one operation (`step_cases`, `Effect.finish_inv`). -/
theorem stepKeepsInvariant : Obligations.StepKeepsInvariant := by
  intro s t hs hstep
  rcases step_cases hstep with ⟨-, rfl⟩ | ⟨f, v, evs, n, rfl, heff, -, hn⟩
  · exact hs
  · exact heff.finish_inv hs n v hn (step_rst_absent hstep)

/-! ## What an operation answers -/

theorem Flow.bind_go_right (f : Flow) : f.bind .go = f := by cases f <;> rfl

/-- The RESULT of an operation that ends in OK (10_state.md R32): a value of CVT565, FBRD and QUERY, else
0. -/
def okResult (s : State) : Instr → U64
  | .cvt565 r g b => (rgb565 r g b).setWidth 64
  | .fbrd x y => packRgb (s.fbRead (fbAddr s.cfg.width x.toNat y.toNat 0) 3)
  | .query idx => BitVec.ofNat 64 ((queryItem s idx).getD 0)
  | _ => 0

theorem okResult_eq_zero (s : State) {i : Instr} (hc : ∀ r g b, i ≠ .cvt565 r g b)
    (hf : ∀ x y, i ≠ .fbrd x y) (hq : ∀ idx, i ≠ .query idx) : okResult s i = 0 := by
  cases i with
  | cvt565 r g b => exact absurd rfl (hc r g b)
  | fbrd x y => exact absurd rfl (hf x y)
  | query idx => exact absurd rfl (hq idx)
  | _ => rfl

/-- Every operation starts with the check of `S.dead` and ends with its length and its response. -/
theorem exec_eq_finish (i : Instr) (s : State) :
    ∃ k, exec i s = .next (finish i.length (okResult s i) ((start s).bind k)) := by
  cases i with
  | cvt565 r g b => exact ⟨.go, by rw [Flow.bind_go_right]; rfl⟩
  | _ => exact ⟨_, rfl⟩

theorem step_illegal {s : State} {b : Byte} (h : fetch s = .illegal b) :
    step s = .next (illegalOpcode s) := by
  simp only [step, h]

/-- Settles O6: `S.opPos` is advanced by `finish` alone. -/
theorem positionAdvancesByLength : Obligations.PositionAdvancesByLength := by
  refine ⟨fun i s => ?_, fun s b hb => ⟨_, step_illegal hb, ?_⟩, fun _ _ => rfl⟩
  · obtain ⟨f, v, evs, he, heff⟩ := exec_effect i s
    exact ⟨_, he, by rw [finish_opPos, heff.opPos]⟩
  · obtain ⟨f, hf, heff⟩ := illegalOpcode_effect s
    rw [hf, finish_opPos, heff.opPos]

/-- Settles O12: the response is that of `finish`, with the value `okResult`. -/
theorem oneResponsePerOperation : Obligations.OneResponsePerOperation := by
  intro i s
  obtain ⟨k, hexec⟩ := exec_eq_finish i s
  have hold : ((start s).bind k).state.responses = s.responses := by
    obtain ⟨f, v, evs, he, heff⟩ := exec_effect i s
    have hresp := congrArg State.responses (Host.Outcome.next.inj (hexec.symm.trans he))
    rw [finish_responses, finish_responses, heff.responses] at hresp
    exact (List.append_inj' hresp rfl).1
  refine ⟨_, _, hexec, by rw [finish_responses, hold], Flow.response_result_of_error _ _,
    fun hc hf hq => ?_⟩
  rw [okResult_eq_zero s hc hf hq, Flow.response_zero_result]

/-- Settles O45: the events are those of the operation's effect, and only RESET and BEGIN write the reset
line (`exec_rstLevels`). -/
theorem linesFollowTrace : Obligations.LinesFollowTrace := by
  intro i s
  obtain ⟨f, v, evs, he, heff⟩ := exec_effect i s
  obtain ⟨htrace, hrst, hdc⟩ := heff.trace
  refine ⟨_, evs, he, htrace, hdc, hrst, fun l hl => ?_⟩
  by_contra hno
  have hkept : rstLevels (finish i.length v f).trace = rstLevels s.trace :=
    exec_rstLevels he (by
      cases hr : s.cfg.hasRst
      · exact .inl rfl
      · exact .inr (by simpa [hr] using hno))
  rw [finish_trace, htrace, rstLevels_append, List.append_right_eq_self] at hkept
  have hmem := (mem_rstLevels l evs).mpr hl
  simp [hkept] at hmem

/-- Settles O49, by the cases of a step. -/
theorem stepOnlyAppends : Obligations.StepOnlyAppends := by
  intro s t hstep
  rcases step_cases hstep with ⟨-, rfl⟩ | ⟨f, v, evs, n, rfl, heff, -, -⟩
  · exact ⟨rfl, rfl, rfl, rfl, ⟨[], (List.append_nil _).symm⟩, .inl rfl⟩
  · exact ⟨heff.cfg, heff.busOpen, heff.dead_eq, heff.stream, ⟨evs, heff.trace.1⟩,
      .inr ⟨f.response v, by rw [finish_responses, heff.responses]⟩⟩

/-! ## Construction and the dead block -/

/-- Construction succeeds exactly outside the cases of 60_exceptions.md R211. -/
theorem constructs_iff (p : Params) (pl : Platform) : p.constructs pl = true ↔
    1 ≤ p.width ∧ p.width ≤ 65535 ∧ 1 ≤ p.height ∧ p.height ≤ 65535 ∧ pl.dcLineValid = true ∧
      (p.hasRst = true → pl.rstLineValid = true) ∧ pl.busOpens = true := by
  have hrst : (!p.hasRst || pl.rstLineValid) = true ↔
      (p.hasRst = true → pl.rstLineValid = true) := by
    cases p.hasRst <;> simp
  simp only [Params.constructs, Params.sizeOk, Bool.and_eq_true, decide_eq_true_eq, hrst, and_assoc]

theorem construct_of_constructs {p : Params} {pl : Platform} (h : p.constructs pl = true) :
    construct p pl = State.constructed p := by
  simp [construct, h, State.constructed]

/-- Settles O8: `constructs_iff` reads the checks, and a valid construction is `State.constructed`. -/
theorem constructionLeavesTable : Obligations.ConstructionLeavesTable := by
  intro p pl
  dsimp only
  rw [← constructs_iff]
  constructor
  · intro h
    rw [construct_of_constructs h]
    exact ⟨rfl, rfl, rfl, rfl, rfl, rfl, rfl, rfl, fun _ => rfl, rfl, rfl⟩
  · intro h
    simp [construct, h]

theorem exec_dead (i : Instr) {s : State} (h : s.dead = true) :
    exec i s = .next (s.responds i.length .configError 0) := by
  obtain ⟨k, he⟩ := exec_eq_finish i s
  rw [he, start_dead h, Flow.bind_stop, finish_stop]

theorem illegalOpcode_dead {s : State} (h : s.dead = true) :
    illegalOpcode s = s.responds 1 .configError 0 := by
  rw [illegalOpcode, start_dead h, Flow.bind_stop, finish_stop]

/-- Settles O11: `start` raises CONFIG_ERROR, and no step writes `S.dead`. -/
theorem deadBlockDoesNothing : Obligations.DeadBlockDoesNothing := by
  refine ⟨fun i s h => exec_dead i h, fun s b h hb => ?_, fun s t hstep => ?_⟩
  · rw [step_illegal hb, illegalOpcode_dead h]
  · obtain ⟨-, -, hdead, -⟩ := stepOnlyAppends s t hstep
    exact hdead

/-- A constructed state lists nothing, so of the invariant only the panel size depends on the checks. -/
theorem construct_inv (p : Params) (pl : Platform) : (construct p pl).Inv := by
  constructor
  case size =>
    intro hlive
    simp only [construct, Bool.not_eq_false', Params.constructs, Bool.and_eq_true] at hlive
    exact hlive.1.1.1
  case bus => simp [construct]
  case fbForm => exact List.Pairwise.nil
  all_goals simp [construct, State.constructed, lastDc, lastRst, xferCount]

theorem reset_eq_construct : State.reset = construct Params.standard ⟨true, true, true⟩ := rfl

/-- Settles O51: the reset state is one of the constructions. -/
theorem constructionMeetsInvariant : Obligations.ConstructionMeetsInvariant :=
  ⟨reset_eq_construct ▸ construct_inv _ _, construct_inv⟩

end Sys2Proof.Machine
end

section
/-! SUPPORT and PROOF. The frame buffer's pixels: their addresses (20_memory.md R63), FBWR and FBRD on the
panel (43_facade.md R183, R184), and a read after a write (R76). -/

namespace Sys2Proof.Machine

/-! ## Addresses -/

theorem fbAddr_div_mod {w x y c : Nat} (hx : x < w) (hc : c < 3) :
    fbAddr w x y c / 3 / w = y ∧ fbAddr w x y c / 3 % w = x ∧ fbAddr w x y c % 3 = c := by
  have hpixel : fbAddr w x y c / 3 = x + w * y := by
    rw [fbAddr, Nat.mul_comm w y]
    omega
  rw [hpixel, Nat.add_mul_div_left _ _ (by omega), Nat.div_eq_of_lt hx, Nat.zero_add,
    Nat.add_mul_mod_self_left, Nat.mod_eq_of_lt hx]
  exact ⟨rfl, rfl, fbAddr_mod w x y c hc⟩

/-- An address gives back its pixel and its channel. -/
theorem fbAddr_inj {w x y c x' y' c' : Nat} (hx : x < w) (hc : c < 3) (hx' : x' < w) (hc' : c' < 3)
    (h : fbAddr w x y c = fbAddr w x' y' c') : x = x' ∧ y = y' ∧ c = c' := by
  obtain ⟨hy1, hx1, hc1⟩ := fbAddr_div_mod (y := y) hx hc
  obtain ⟨hy2, hx2, hc2⟩ := fbAddr_div_mod (y := y') hx' hc'
  rw [h] at hy1 hx1 hc1
  exact ⟨hx1.symm.trans hx2, hy1.symm.trans hy2, hc1.symm.trans hc2⟩

/-- Settles O40: the bound is `fbAddr_lt`, and pixel and channel are a quotient and remainders. -/
theorem pixelAddressesDistinct : Obligations.PixelAddressesDistinct :=
  fun _ _ _ _ _ _ _ hx hy hc hx' _ hc' => ⟨rfl, fbAddr_lt hx hy hc, fbAddr_inj hx hc hx' hc'⟩

/-- The three bytes of two pixels do not overlap. -/
theorem fbAddr_disjoint {w x y x' y' : Nat} (hx : x < w) (hx' : x' < w) (h : ¬ (x' = x ∧ y' = y)) :
    fbAddr w x' y' 0 + 3 ≤ fbAddr w x y 0 ∨ fbAddr w x y 0 + 3 ≤ fbAddr w x' y' 0 := by
  have hne : fbAddr w x' y' 0 ≠ fbAddr w x y 0 := fun heq => by
    obtain ⟨hxx, hyy, -⟩ := fbAddr_inj hx' (by decide) hx (by decide) heq
    exact h ⟨hxx, hyy⟩
  have h3 := fbAddr_mod w x y 0 (by decide)
  have h3' := fbAddr_mod w x' y' 0 (by decide)
  omega

/-! ## Reading a written range -/

/-- `MemRead` of what `MemWrite` wrote. -/
theorem State.fbRead_fbWrite_self (s : State) (a : Nat) (bs : List Byte) :
    (s.fbWrite a bs).fbRead a bs.length = bs := by
  rw [State.fbRead_eq]
  refine List.ext_getElem (by simp) fun k _ hk => ?_
  simp [State.fbByte, Mem.lookup_writes, hk]

/-- `MemRead` of a range that `MemWrite` did not touch. -/
theorem State.fbRead_fbWrite_disjoint (s : State) (a : Nat) (bs : List Byte) (c n : Nat)
    (h : c + n ≤ a ∨ a + bs.length ≤ c) : (s.fbWrite a bs).fbRead c n = s.fbRead c n := by
  rw [State.fbRead_eq, State.fbRead_eq]
  refine List.map_congr_left fun k hk => ?_
  rw [List.mem_range'_1] at hk
  rw [State.fbByte, State.fbWrite_fb, Mem.lookup_writes, if_neg (by omega), State.fbByte]

/-- The RESULT of FBRD as a number (43_facade.md R184). -/
theorem packRgb_eq_ofNat (r g b : Byte) :
    packRgb [r, g, b] = BitVec.ofNat 64 (r.toNat * 65536 + g.toNat * 256 + b.toNat) := by
  have hrgb : (r ++ g ++ b).toNat = r.toNat * 65536 + g.toNat * 256 + b.toNat := by
    rw [BitVec.toNat_append, BitVec.toNat_append, ← Nat.shiftLeft_add_eq_or_of_lt g.isLt,
      ← Nat.shiftLeft_add_eq_or_of_lt b.isLt, Nat.shiftLeft_eq, Nat.shiftLeft_eq]
    omega
  rw [packRgb, ← hrgb, BitVec.ofNat_toNat]

/-! ## FBWR and FBRD of a pixel on the panel -/

section
variable {x y : U16} {s : State}

theorem onPanel_eq_true (hx : x.toNat < s.cfg.width) (hy : y.toNat < s.cfg.height) :
    onPanel s.cfg x.toNat y.toNat = true := decide_eq_true ⟨hx, hy⟩

theorem exec_fbwr_onPanel (r g b : Byte) (h : s.dead = false) (hx : x.toNat < s.cfg.width)
    (hy : y.toNat < s.cfg.height) : exec (.fbwr x y r g b) s =
      .next ((s.fbWrite (fbAddr s.cfg.width x.toNat y.toNat 0) [r, g, b]).responds 8 .ok 0) := by
  rw [exec, execFbwr, start_live h, Flow.bind_go, onPanel_eq_true hx hy, require_true, Flow.bind_go,
    finish_go]
  rfl

theorem exec_fbrd_onPanel {bs : List Byte} (h : s.dead = false) (hx : x.toNat < s.cfg.width)
    (hy : y.toNat < s.cfg.height)
    (hread : s.fbRead (fbAddr s.cfg.width x.toNat y.toNat 0) 3 = bs) :
    exec (.fbrd x y) s = .next (s.responds 5 .ok (packRgb bs)) := by
  rw [exec, execFbrd, start_live h, Flow.bind_go, onPanel_eq_true hx hy, require_true, finish_go,
    hread]
  rfl

end

/-- Settles O39: FBRD reads back the range FBWR wrote, and another pixel's range is disjoint from it. -/
theorem fbrdSeesFbwr : Obligations.FbrdSeesFbwr := by
  intro x y x' y' r g b s hlive hx hy hx' hy'
  refine ⟨_, exec_fbwr_onPanel r g b hlive hx hy, ?_,
    fun hne => ⟨_, exec_fbrd_onPanel hlive hx' hy' rfl, ?_⟩⟩
  · rw [← packRgb_eq_ofNat]
    exact exec_fbrd_onPanel hlive hx hy (s.fbRead_fbWrite_self _ [r, g, b])
  · have hother : ¬ (x'.toNat = x.toNat ∧ y'.toNat = y.toNat) := fun ⟨hxx, hyy⟩ =>
      hne (Prod.ext (BitVec.eq_of_toNat_eq hxx) (BitVec.eq_of_toNat_eq hyy))
    exact exec_fbrd_onPanel hlive hx' hy'
      (s.fbRead_fbWrite_disjoint _ [r, g, b] _ 3 (fbAddr_disjoint hx hx' hother))

end Sys2Proof.Machine
end

section
/-! SUPPORT and PROOF. What each operation leaves of the frame buffer (20_memory.md R72) and of the
lifecycle (10_state.md R37), read off the operations it is made of. -/

namespace Sys2Proof.Machine

/-! ## What a piece of pseudocode keeps -/

/-- From every state the pseudocode `k` ends, on OK or at an error, with `p` as it was. -/
def Keeps {α : Type} (p : State → α) (k : State → Flow) : Prop := ∀ s, p (k s).state = p s

section
variable {α : Type} {p : State → α} {k l : State → Flow}

theorem Keeps.bind (hk : Keeps p k) (hl : Keeps p l) : Keeps p fun s => (k s).bind l :=
  fun s => (bind_keeps p (k s) l hl).trans (hk s)

theorem start_keeps : Keeps p start := fun s => by
  cases h : s.dead
  · rw [start_live h, Flow.state_go]
  · rw [start_dead h, Flow.state_stop]

theorem require_keeps (c : State → Bool) (e : Status) : Keeps p fun s => require (c s) e s :=
  fun s => by cases h : c s <;> simp [h]

end

/-! ## The buffer and the lifecycle -/

/-- The two items that only named operations write. -/
def bufferAndLifecycle (s : State) : List Host.Cell × Lifecycle := (s.fb, s.lc)

theorem send_keeps (bs : List Byte) (isData : Bool) {c : Nat} (hc : 1 ≤ c) :
    Keeps bufferAndLifecycle (send bs isData c) := fun s => by
  obtain ⟨evs, hr⟩ := send_reaches none bs isData hc s
  exact Prod.ext hr.fb (send_lc bs isData c s)

theorem windowSeq_keeps (x0 y0 x1 y1 : Nat) :
    Keeps bufferAndLifecycle (windowSeq x0 y0 x1 y1) := fun s => by
  obtain ⟨evs, hr⟩ := windowSeq_reaches x0 y0 x1 y1 s
  exact Prod.ext hr.fb (windowSeq_lc x0 y0 x1 y1 s)

theorem fullWindowSeq_keeps : Keeps bufferAndLifecycle fullWindowSeq :=
  fun s => windowSeq_keeps 0 0 (s.cfg.width - 1) (s.cfg.height - 1) s

theorem sendImage_keeps (img : State → List Byte) :
    Keeps bufferAndLifecycle fun s => sendImage (img s) s :=
  fun s => send_keeps _ true (by decide) s

theorem initSequence_keeps_fb : Keeps State.fb initSequence := fun s => by
  obtain ⟨evs, hr⟩ := initSequence_reaches none s
  exact hr.fb

/-- The common beginning of RESET and BEGIN. -/
theorem resetPulse_keeps_fb : Keeps State.fb fun s => .go (s.resetPulse.setLc .reset) :=
  fun s => (resetPulse_reaches 0 none s).fb

/-! ## Every operation -/

/-- A completed operation that keeps both; `P` and `Q` stand for the exceptions it does not need. -/
theorem Keeps.finish_writes_neither {k : State → Flow} (hk : Keeps bufferAndLifecycle k) (n : Nat)
    (v : U64) (s : State) {P Q : Prop} :
    ∃ t, (.next (finish n v (k s)) : Host.Outcome State Fault Refusal) = .next t ∧
      (t.fb = s.fb ∨ P) ∧ (t.lc = s.lc ∨ Q) :=
  ⟨_, rfl, .inl (congrArg Prod.fst (hk s)), .inl (congrArg Prod.snd (hk s))⟩

/-- Settles O46: the sends and the window sequence keep both items, CLEAR and FBWR write no lifecycle, and
the pulse and the init sequence no frame buffer. -/
theorem writersOfBufferAndLifecycle : Obligations.WritersOfBufferAndLifecycle := by
  intro i s
  cases i with
  | cvt565 r g b => exact start_keeps.finish_writes_neither _ _ s
  | sendc chunk payload =>
    exact (start_keeps.bind (send_keeps _ _ (chunkOf_pos chunk))).finish_writes_neither _ _ s
  | sendd chunk payload =>
    exact (start_keeps.bind (send_keeps _ _ (chunkOf_pos chunk))).finish_writes_neither _ _ s
  | resetOp =>
    exact ⟨_, rfl, .inl (start_keeps.bind resetPulse_keeps_fb s), .inr (.inl rfl)⟩
  | initOp =>
    exact ⟨_, rfl, .inl (start_keeps.bind initSequence_keeps_fb s), .inr (.inr (.inl rfl))⟩
  | beginOp =>
    exact ⟨_, rfl, .inl (start_keeps.bind (resetPulse_keeps_fb.bind initSequence_keeps_fb) s),
      .inr (.inr (.inr rfl))⟩
  | setwin x0 y0 x1 y1 =>
    exact (start_keeps.bind ((require_keeps _ _).bind (windowSeq_keeps _ _ _ _))).finish_writes_neither
      _ _ s
  | setwinf => exact (start_keeps.bind fullWindowSeq_keeps).finish_writes_neither _ _ s
  | clear r g b =>
    exact ⟨_, rfl, .inr (.inl ⟨r, g, b, rfl⟩),
      .inl (start_keeps.bind (p := State.lc) (fun _ => rfl) s)⟩
  | fbwr x y r g b =>
    exact ⟨_, rfl, .inr (.inr ⟨x, y, r, g, b, rfl⟩),
      .inl (start_keeps.bind (p := State.lc) ((require_keeps _ _).bind fun _ => rfl) s)⟩
  | fbrd x y =>
    exact (start_keeps.bind (require_keeps _ _)).finish_writes_neither _ _ s
  | display =>
    exact (start_keeps.bind (fullWindowSeq_keeps.bind (sendImage_keeps _))).finish_writes_neither _ _ s
  | dispimg w h pixels =>
    exact (start_keeps.bind ((require_keeps _ _).bind
      (fullWindowSeq_keeps.bind (sendImage_keeps _)))).finish_writes_neither _ _ s
  | query idx => exact (start_keeps.bind (require_keeps _ _)).finish_writes_neither _ _ s

end Sys2Proof.Machine
end

section
/-! SUPPORT and PROOF. The host encoding (30_encoding.md R90 to R95): what each format reads, and from it that
the decoder reads exactly the well-formed operations, each from exactly its own bytes (`decode_op_iff`). -/

namespace Sys2Proof

/-! ## What each format reads (R91) -/

@[simp] theorem takePayload_append (payload rest : List Byte) (mk : List Byte → Instr) :
    takePayload payload.length (payload ++ rest) mk = .op (mk payload) rest := by
  simp [takePayload]

section
variable {bs rest : List Byte} {i : Instr}

theorem decodeFC_op_iff {mk : Byte → Byte → Byte → Instr} :
    decodeFC mk bs = .op i rest ↔ ∃ r g b, i = mk r g b ∧ bs = [r, g, b] ++ rest := by
  constructor
  · intro h
    unfold decodeFC at h
    split at h
    · obtain ⟨rfl, rfl⟩ := Decoded.op.inj h
      exact ⟨_, _, _, rfl, rfl⟩
    · simp at h
  · rintro ⟨r, g, b, rfl, rfl⟩
    rfl

/-- The payload of format FS is as long as its LEN field says, so it fits in a u16. -/
theorem decodeFS_op_iff {mk : U16 → List Byte → Instr} :
    decodeFS mk bs = .op i rest ↔ ∃ chunk payload, i = mk chunk payload ∧ payload.length < 65536 ∧
      bs = u16Bytes chunk ++ u16Bytes (BitVec.ofNat 16 payload.length) ++ payload ++ rest := by
  constructor
  · intro h
    unfold decodeFS at h
    split at h
    · rename_i c1 c0 l1 l0 tail
      obtain ⟨hle, rfl, rfl⟩ := takePayload_op h
      have hlen : (tail.take (be16 l1 l0).toNat).length = (be16 l1 l0).toNat :=
        List.length_take_of_le hle
      refine ⟨_, _, rfl, hlen.trans_lt (be16 l1 l0).isLt, ?_⟩
      rw [hlen, BitVec.ofNat_toNat, BitVec.setWidth_eq, u16Bytes_be16, u16Bytes_be16,
        List.append_assoc, List.take_append_drop]
      rfl
    · simp at h
  · rintro ⟨chunk, payload, rfl, hlt, rfl⟩
    simp [u16Bytes, decodeFS, be16_u16Bytes, Nat.mod_eq_of_lt hlt]

theorem decodeFW_op_iff {mk : U16 → U16 → U16 → U16 → Instr} :
    decodeFW mk bs = .op i rest ↔ ∃ x0 y0 x1 y1, i = mk x0 y0 x1 y1 ∧
      bs = u16Bytes x0 ++ u16Bytes y0 ++ u16Bytes x1 ++ u16Bytes y1 ++ rest := by
  constructor
  · intro h
    unfold decodeFW at h
    split at h
    · obtain ⟨rfl, rfl⟩ := Decoded.op.inj h
      exact ⟨_, _, _, _, rfl, by simp [u16Bytes_be16]⟩
    · simp at h
  · rintro ⟨x0, y0, x1, y1, rfl, rfl⟩
    simp [u16Bytes, decodeFW, be16_u16Bytes]

theorem decodeFP_op_iff {mk : U16 → U16 → Byte → Byte → Byte → Instr} :
    decodeFP mk bs = .op i rest ↔ ∃ x y r g b, i = mk x y r g b ∧
      bs = u16Bytes x ++ u16Bytes y ++ [r, g, b] ++ rest := by
  constructor
  · intro h
    unfold decodeFP at h
    split at h
    · obtain ⟨rfl, rfl⟩ := Decoded.op.inj h
      exact ⟨_, _, _, _, _, rfl, by simp [u16Bytes_be16]⟩
    · simp at h
  · rintro ⟨x, y, r, g, b, rfl, rfl⟩
    simp [u16Bytes, decodeFP, be16_u16Bytes]

theorem decodeFA_op_iff {mk : U16 → U16 → Instr} :
    decodeFA mk bs = .op i rest ↔ ∃ x y, i = mk x y ∧ bs = u16Bytes x ++ u16Bytes y ++ rest := by
  constructor
  · intro h
    unfold decodeFA at h
    split at h
    · obtain ⟨rfl, rfl⟩ := Decoded.op.inj h
      exact ⟨_, _, rfl, by simp [u16Bytes_be16]⟩
    · simp at h
  · rintro ⟨x, y, rfl, rfl⟩
    simp [u16Bytes, decodeFA, be16_u16Bytes]

/-- The payload of format FI is as long as its size fields say (R94). -/
theorem decodeFI_op_iff {mk : U16 → U16 → List Byte → Instr} :
    decodeFI mk bs = .op i rest ↔ ∃ w h pixels, i = mk w h pixels ∧
      pixels.length = 3 * w.toNat * h.toNat ∧ bs = u16Bytes w ++ u16Bytes h ++ pixels ++ rest := by
  constructor
  · intro hop
    unfold decodeFI at hop
    split at hop
    · obtain ⟨hle, rfl, rfl⟩ := takePayload_op hop
      refine ⟨_, _, _, rfl, List.length_take_of_le hle, ?_⟩
      rw [u16Bytes_be16, u16Bytes_be16, List.append_assoc, List.take_append_drop]
      rfl
    · simp at hop
  · rintro ⟨w, h, pixels, rfl, hlen, rfl⟩
    simp [u16Bytes, decodeFI, be16_u16Bytes, ← hlen]

theorem decodeFX_op_iff {mk : Byte → Instr} :
    decodeFX mk bs = .op i rest ↔ ∃ idx, i = mk idx ∧ bs = [idx] ++ rest := by
  constructor
  · intro h
    unfold decodeFX at h
    split at h
    · obtain ⟨rfl, rfl⟩ := Decoded.op.inj h
      exact ⟨_, rfl, rfl⟩
    · simp at h
  · rintro ⟨idx, rfl, rfl⟩
    rfl

/-! ## The decoder reads the encoder's bytes and nothing else -/

/-- After an opcode, an operation's operand bytes are read back as the operation. -/
theorem decodeOperands_operandBytes (rest : List Byte) (hi : i.wellFormed = true) :
    decodeOperands i.opcode (operandBytes i ++ rest) = .op i rest := by
  cases i with
  | cvt565 r g b => exact decodeFC_op_iff.mpr ⟨r, g, b, rfl, rfl⟩
  | sendc chunk p => exact decodeFS_op_iff.mpr ⟨chunk, p, rfl, of_decide_eq_true hi, rfl⟩
  | sendd chunk p => exact decodeFS_op_iff.mpr ⟨chunk, p, rfl, of_decide_eq_true hi, rfl⟩
  | setwin x0 y0 x1 y1 => exact decodeFW_op_iff.mpr ⟨x0, y0, x1, y1, rfl, rfl⟩
  | clear r g b => exact decodeFC_op_iff.mpr ⟨r, g, b, rfl, rfl⟩
  | fbwr x y r g b => exact decodeFP_op_iff.mpr ⟨x, y, r, g, b, rfl, rfl⟩
  | fbrd x y => exact decodeFA_op_iff.mpr ⟨x, y, rfl, rfl⟩
  | dispimg w h pixels => exact decodeFI_op_iff.mpr ⟨w, h, pixels, rfl, of_decide_eq_true hi, rfl⟩
  | query idx => exact decodeFX_op_iff.mpr ⟨idx, rfl, rfl⟩
  | resetOp | initOp | beginOp | setwinf | display => rfl

/-- What is read after an opcode is a well-formed operation of that opcode, from its own operand bytes. -/
theorem spelling_of_decodeOperands {o : Opcode} (h : decodeOperands o bs = .op i rest) :
    i.wellFormed = true ∧ i.opcode = o ∧ bs = operandBytes i ++ rest := by
  cases o with
  | cvt565 | clear =>
    obtain ⟨r, g, b, rfl, rfl⟩ := decodeFC_op_iff.mp h
    exact ⟨rfl, rfl, rfl⟩
  | sendc | sendd =>
    obtain ⟨chunk, payload, rfl, hlt, rfl⟩ := decodeFS_op_iff.mp h
    exact ⟨decide_eq_true hlt, rfl, rfl⟩
  | setwin =>
    obtain ⟨x0, y0, x1, y1, rfl, rfl⟩ := decodeFW_op_iff.mp h
    exact ⟨rfl, rfl, rfl⟩
  | fbwr =>
    obtain ⟨x, y, r, g, b, rfl, rfl⟩ := decodeFP_op_iff.mp h
    exact ⟨rfl, rfl, rfl⟩
  | fbrd =>
    obtain ⟨x, y, rfl, rfl⟩ := decodeFA_op_iff.mp h
    exact ⟨rfl, rfl, rfl⟩
  | dispimg =>
    obtain ⟨w, h, pixels, rfl, hlen, rfl⟩ := decodeFI_op_iff.mp h
    exact ⟨decide_eq_true hlen, rfl, rfl⟩
  | query =>
    obtain ⟨idx, rfl, rfl⟩ := decodeFX_op_iff.mp h
    exact ⟨rfl, rfl, rfl⟩
  | resetOp | initOp | beginOp | setwinf | display =>
    obtain ⟨rfl, rfl⟩ := Decoded.op.inj h
    exact ⟨rfl, rfl, rfl⟩

theorem decode_opcode_cons (o : Opcode) (bs : List Byte) :
    decode (o.byte :: bs) = decodeOperands o bs := by
  simp only [decode, Opcode.ofByte_byte]

/-- The decoder reads an operation from exactly its encoding, and only well-formed ones. -/
theorem decode_op_iff : decode bs = .op i rest ↔ i.wellFormed = true ∧ bs = encode i ++ rest := by
  constructor
  · intro h
    cases bs with
    | nil => simp [decode] at h
    | cons b bs =>
      cases ho : Opcode.ofByte b with
      | none => simp [decode, ho] at h
      | some o =>
        obtain rfl := Opcode.byte_of_ofByte ho
        rw [decode_opcode_cons] at h
        obtain ⟨hwf, rfl, rfl⟩ := spelling_of_decodeOperands h
        exact ⟨hwf, rfl⟩
  · rintro ⟨hwf, rfl⟩
    exact (decode_opcode_cons _ _).trans (decodeOperands_operandBytes rest hwf)

end

/-- Settles O1, by `decode_op_iff` read from right to left. -/
theorem decodeOfEncode : Obligations.DecodeOfEncode :=
  fun _ _ hwf => decode_op_iff.mpr ⟨hwf, rfl⟩

/-- Settles O2, by `decode_op_iff` read from left to right. -/
theorem encodeOfDecode : Obligations.EncodeOfDecode := by
  intro bs i rest h
  obtain ⟨hwf, hbs⟩ := decode_op_iff.mp h
  exact ⟨hwf, hbs.symm⟩

/-- Settles O3: fourteen closed runs of the decoder. -/
theorem sampleWordsDecode : Obligations.SampleWordsDecode := by
  unfold Obligations.SampleWordsDecode
  decide

/-! ## Bytes that spell no whole operation (R97, R100) -/

theorem Opcode.ofByte_eq_none_iff (b : Byte) :
    Opcode.ofByte b = none ↔ b ∉ opcodes.map Opcode.byte := by
  simp [Opcode.ofByte]

theorem decode_cons_of_not_opcode {b : Byte} (rest : List Byte) (h : b ∉ opcodes.map Opcode.byte) :
    decode (b :: rest) = .illegal b := by
  simp only [decode, (Opcode.ofByte_eq_none_iff b).mpr h]

/-- Of the 256 byte values the map has 14, so 242 are left. -/
theorem illegal_opcode_count : ((List.range 256).filter fun n =>
    !(opcodes.map Opcode.byte).contains (BitVec.ofNat 8 n)).length = 242 := by
  have hlegal : (List.range 256).filter
      (fun n => (opcodes.map Opcode.byte).contains (BitVec.ofNat 8 n)) =
        opcodes.map fun o => o.byte.toNat := by decide
  have hsplit := List.length_eq_length_filter_add (l := List.range 256)
    fun n => (opcodes.map Opcode.byte).contains (BitVec.ofNat 8 n)
  rw [hlegal, List.length_map, List.length_range] at hsplit
  exact Nat.add_left_cancel hsplit.symm

/-- The beginning of an encoding, short of its end, is neither an operation nor an illegal opcode. -/
theorem decode_cut_encoding {i : Instr} {bs missing : List Byte} (hwf : i.wellFormed = true)
    (hmissing : missing ≠ []) (h : bs ++ missing = encode i) : decode bs = .truncated := by
  cases hd : decode bs with
  | op j rest =>
    obtain ⟨hj, rfl⟩ := decode_op_iff.mp hd
    have hboth : Decoded.op j (rest ++ missing) = .op i [] := by
      rw [← decodeOfEncode j _ hj, ← decodeOfEncode i _ hwf, ← h, List.append_nil, List.append_assoc]
    obtain ⟨-, hnil⟩ := Decoded.op.inj hboth
    exact absurd (List.append_eq_nil_iff.mp hnil).2 hmissing
  | illegal b =>
    obtain ⟨rest, rfl, hb⟩ := decode_illegal hd
    obtain ⟨rfl, -⟩ := List.cons.inj h
    rw [Opcode.ofByte_byte] at hb
    simp at hb
  | truncated => rfl

end Sys2Proof
end

section
/-! SUPPORT and PROOF. What a step does at the bytes of the stream (30_encoding.md R90, R97, R100). -/

namespace Sys2Proof.Machine

/-- Settles O5, by the decoded operation's branch of `step`. -/
theorem stepRunsDecodedOperation : Obligations.StepRunsDecodedOperation := by
  intro s i rest h
  simp only [step, fetch, h]

theorem step_truncated {s : State} (h : fetch s = .truncated) : step s = .next s := by
  simp only [step, h]

/-- Settles O7: before the missing bytes come the stream holds the beginning of an encoding
(`decode_cut_encoding`), and then the encoding itself. -/
theorem truncatedOperationWaits : Obligations.TruncatedOperationWaits := by
  intro s i missing hwf hpos hmissing h
  refine ⟨step_truncated (decode_cut_encoding hwf hmissing h),
    stepRunsDecodedOperation _ i [] (decode_op_iff.mpr ⟨hwf, ?_⟩)⟩
  rw [State.supply_stream, State.supply_opPos, List.drop_append_of_le_length hpos, h,
    List.append_nil]

/-! ## Illegal encodings (R97) -/

theorem illegalOpcode_eq (s : State) :
    illegalOpcode s = s.responds 1 (if s.dead then .configError else .illegalOp) 0 := by
  cases h : s.dead with
  | true => exact illegalOpcode_dead h
  | false =>
    rw [illegalOpcode, start_live h]
    rfl

/-- The QUERY indices end at 0x0A (10_state.md R45). -/
theorem queryItem_unlisted (s : State) {idx : Byte} (h : 0x0A < idx) : queryItem s idx = none := by
  obtain ⟨k, hk⟩ : ∃ k, idx.toNat = k + 11 :=
    ⟨idx.toNat - 11, (Nat.sub_add_cancel (BitVec.lt_def.mp h)).symm⟩
  rw [queryItem, hk]
  rfl

theorem exec_query_unlisted (s : State) {idx : Byte} (h : 0x0A < idx) : exec (.query idx) s =
    .next (s.responds 2 (if s.dead then .configError else .illegalOp) 0) := by
  cases hd : s.dead with
  | true => exact exec_dead _ hd
  | false =>
    rw [exec, execQuery, start_live hd, Flow.bind_go, queryItem_unlisted s h]
    rfl

/-- The byte after a consumed one is decoded as an opcode. -/
theorem fetch_responds_one {s : State} {b : Byte} {rest : List Byte} (st : Status) (v : U64)
    (h : s.stream.drop s.opPos = b :: rest) : fetch (s.responds 1 st v) = decode rest := by
  have hrest : s.stream.drop (s.opPos + 1) = rest := by
    rw [← List.drop_drop, h, List.drop_one, List.tail_cons]
  exact congrArg decode hrest

/-- Settles O4: the listed bytes are the opcode column of the map (`decode_cons_of_not_opcode`), and an
unlisted index has no QUERY item (`queryItem_unlisted`). -/
theorem illegalEncodingsConsumeOneByte : Obligations.IllegalEncodingsConsumeOneByte := by
  refine ⟨illegal_opcode_count, fun s b rest hb hs => ⟨?_, fetch_responds_one _ _ hs⟩,
    fun s _ => exec_query_unlisted s⟩
  have hfetch : fetch s = .illegal b := by rw [fetch, hs, decode_cons_of_not_opcode rest hb]
  rw [step_illegal hfetch, illegalOpcode_eq]

end Sys2Proof.Machine
end

section
/-! SUPPORT and PROOF. The pins of one SPI transaction and what a mode-0 receiver samples on them
(30_encoding.md R107). -/

namespace Sys2Proof.Machine

@[simp] theorem byteBits_length (b : Byte) : (byteBits b).length = 8 := by simp [byteBits]

theorem byteBits_getElem? (b : Byte) {k : Nat} (hk : k < 8) :
    (byteBits b)[k]? = some (b.getLsbD (7 - k)) := by
  simp [byteBits, hk]

theorem flatMap_byteBits_length (bs : List Byte) :
    (bs.flatMap byteBits).length = 8 * bs.length := by
  simp [List.length_flatMap, Nat.mul_comm]

/-- After any pins, the receiver samples each bit of the waves once, at its clock pulse. -/
theorem sampleLeading_waves (bits : List Bool) (p : SpiPins) :
    sampleLeading (p :: bits.flatMap bitWave ++ [spiIdle]) = bits.map some := by
  induction bits generalizing p with
  | nil => simp [sampleLeading, spiIdle]
  | cons b bits ih =>
    have hrest := ih ⟨true, false, some b⟩
    simp only [List.cons_append] at hrest
    simp [bitWave, sampleLeading, hrest]

theorem bitWave_selected {b : Bool} {p : SpiPins} (hp : p ∈ bitWave b) : p.selected = true := by
  simp only [bitWave, List.mem_cons, List.not_mem_nil, or_false] at hp
  obtain rfl | rfl | rfl := hp <;> rfl

/-- Between the two idle ends stand the waves of the bits. -/
theorem spiWave_inner (bs : List Byte) :
    (spiWave bs).tail.dropLast = (bs.flatMap byteBits).flatMap bitWave := by
  rw [spiWave, List.cons_append, List.tail_cons, List.dropLast_concat]

/-- Settles O29: the receiver samples the bits of the waves (`sampleLeading_waves`), and the chip select
is read off one bit's wave. -/
theorem spiCarriesBytes : Obligations.SpiCarriesBytes := by
  intro bs
  refine ⟨sampleLeading_waves _ spiIdle, flatMap_byteBits_length bs,
    fun b k hk => byteBits_getElem? b hk, rfl, List.getLast?_concat, fun p hp => ?_⟩
  rw [spiWave_inner] at hp
  obtain ⟨b, -, hb⟩ := List.mem_flatMap.mp hp
  exact bitWave_selected hb

end Sys2Proof.Machine
end

section
/-! SUPPORT and PROOF. The pixel function (40_pixel_codec.md R120): its bits, its value as a sum, the
inputs of each output, the test decoder, and CVT565. -/

namespace Sys2Proof.Machine

/-! ## The bit fields of a sample -/

section
variable (r g b : Byte) {k : Nat}

theorem rgb565_getLsbD_red (hk : k < 5) : (rgb565 r g b).getLsbD (11 + k) = r.getLsbD (3 + k) := by
  interval_cases k <;> simp [rgb565]

theorem rgb565_getLsbD_green (hk : k < 6) :
    (rgb565 r g b).getLsbD (5 + k) = g.getLsbD (2 + k) := by
  interval_cases k <;> simp [rgb565]

theorem rgb565_getLsbD_blue (hk : k < 5) : (rgb565 r g b).getLsbD k = b.getLsbD (3 + k) := by
  interval_cases k <;> simp [rgb565]

end

/-- Settles O16: the formula is `rgb565_toNat`, and each field has its own lemma. -/
theorem pixelFunction : Obligations.PixelFunction := fun r g b =>
  ⟨rgb565_toNat r g b, fun _ => rgb565_getLsbD_red r g b, fun _ => rgb565_getLsbD_green r g b,
    fun _ => rgb565_getLsbD_blue r g b⟩

/-- The three fields are all 16 bits, so they determine a sample. -/
theorem eq_of_fields {p q : U16} (hred : ∀ k < 5, p.getLsbD (11 + k) = q.getLsbD (11 + k))
    (hgreen : ∀ k < 6, p.getLsbD (5 + k) = q.getLsbD (5 + k))
    (hblue : ∀ k < 5, p.getLsbD k = q.getLsbD k) : p = q := by
  apply BitVec.eq_of_getLsbD_eq
  intro i hi
  rcases Nat.lt_or_ge i 5 with h5 | h5
  · exact hblue i h5
  rcases Nat.lt_or_ge i 11 with h11 | h11
  · simpa [Nat.add_sub_cancel' h5] using hgreen (i - 5) (by omega)
  · simpa [Nat.add_sub_cancel' h11] using hred (i - 11) (by omega)

/-- A colour that holds a sample's fields in its top bits is converted to that sample. -/
theorem rgb565_of_fields {p : U16} {r g b : Byte}
    (hred : ∀ k < 5, r.getLsbD (3 + k) = p.getLsbD (11 + k))
    (hgreen : ∀ k < 6, g.getLsbD (2 + k) = p.getLsbD (5 + k))
    (hblue : ∀ k < 5, b.getLsbD (3 + k) = p.getLsbD k) : rgb565 r g b = p :=
  eq_of_fields (fun k hk => (rgb565_getLsbD_red r g b hk).trans (hred k hk))
    (fun k hk => (rgb565_getLsbD_green r g b hk).trans (hgreen k hk))
    (fun k hk => (rgb565_getLsbD_blue r g b hk).trans (hblue k hk))

/-! ## The test decoder -/

section
variable (p : U16) {k : Nat}

theorem decode565_getLsbD_red (hk : k < 5) :
    (decode565 p).1.getLsbD (3 + k) = p.getLsbD (11 + k) := by
  interval_cases k <;> simp [decode565]

theorem decode565_getLsbD_green (hk : k < 6) :
    (decode565 p).2.1.getLsbD (2 + k) = p.getLsbD (5 + k) := by
  interval_cases k <;> simp [decode565]

theorem decode565_getLsbD_blue (hk : k < 5) :
    (decode565 p).2.2.getLsbD (3 + k) = p.getLsbD k := by
  interval_cases k <;> simp [decode565]

theorem rgb565_decode565 :
    rgb565 (decode565 p).1 (decode565 p).2.1 (decode565 p).2.2 = p :=
  rgb565_of_fields (fun _ => decode565_getLsbD_red p) (fun _ => decode565_getLsbD_green p)
    (fun _ => decode565_getLsbD_blue p)

end

/-- Settles O19: the test decoder keeps every field of a sample, and the fields are all that is read. -/
theorem decodedSampleReencodes : Obligations.DecodedSampleReencodes :=
  ⟨rgb565_decode565, fun _ _ _ => rgb565_decode565 _, fun _ _ _ _ => rgb565_of_fields⟩

/-! ## The value of a sample -/

section
variable (r g b : Byte)

theorem and_0xF8_eq : r.toNat &&& 0xF8 = 8 * (r.toNat / 8) := by
  revert r; decide

theorem and_0xFC_eq : g.toNat &&& 0xFC = 4 * (g.toNat / 4) := by
  revert g; decide

theorem redTerm_eq : (r.toNat &&& 0xF8) <<< 8 = 0x800 * (r.toNat / 8) := by
  rw [and_0xF8_eq, Nat.shiftLeft_eq]; omega

theorem greenTerm_eq : (g.toNat &&& 0xFC) <<< 3 = 0x20 * (g.toNat / 4) := by
  rw [and_0xFC_eq, Nat.shiftLeft_eq]; omega

theorem blueTerm_eq : b.toNat >>> 3 = b.toNat / 8 := Nat.shiftRight_eq_div_pow _ _

/-- Each term lies below the lowest bit of the one before it, so the or is the sum (R125). -/
theorem rgb565_toNat_sum :
    (rgb565 r g b).toNat = 0x800 * (r.toNat / 8) + 0x20 * (g.toNat / 4) + b.toNat / 8 := by
  have hg : 0x20 * (g.toNat / 4) < 2 ^ 11 := by omega
  have hb : b.toNat / 8 < 2 ^ 5 := by omega
  rw [rgb565_toNat, redTerm_eq, greenTerm_eq, blueTerm_eq]
  calc 0x800 * (r.toNat / 8) ||| 0x20 * (g.toNat / 4) ||| b.toNat / 8
      = 2 ^ 5 * (0x40 * (r.toNat / 8) + g.toNat / 4) ||| b.toNat / 8 := by
        rw [show 0x800 * (r.toNat / 8) = 2 ^ 11 * (r.toNat / 8) from rfl,
          ← Nat.two_pow_add_eq_or_of_lt hg]
        congr 1; omega
    _ = 2 ^ 5 * (0x40 * (r.toNat / 8) + g.toNat / 4) + b.toNat / 8 :=
        (Nat.two_pow_add_eq_or_of_lt hb _).symm
    _ = 0x800 * (r.toNat / 8) + 0x20 * (g.toNat / 4) + b.toNat / 8 := by omega

end

/-- Settles O17: the terms are multiples of 2048, of 32 and of 1, each below the next one's unit. -/
theorem pixelTermsDisjoint : Obligations.PixelTermsDisjoint := by
  intro r g b red green blue
  have hred : red = 0x800 * (r.toNat / 8) := redTerm_eq r
  have hgreen : green = 0x20 * (g.toNat / 4) := greenTerm_eq g
  have hblue : blue = b.toNat / 8 := blueTerm_eq b
  have hsum : (rgb565 r g b).toNat = red + green + blue := by
    rw [hred, hgreen, hblue, rgb565_toNat_sum]
  exact ⟨⟨_, hred⟩, by omega, ⟨_, hgreen⟩, by omega, by omega, hsum, by omega⟩

/-! ## The inputs of a sample -/

theorem rgb565_eq_iff {p : U16} {r g b : Byte} : rgb565 r g b = p ↔
    r.toNat / 8 = p.toNat / 0x800 ∧ g.toNat / 4 = p.toNat / 0x20 % 0x40 ∧
      b.toNat / 8 = p.toNat % 0x20 := by
  rw [← BitVec.toNat_inj, rgb565_toNat_sum]
  omega

/-- A quotient has as many bytes as the divisor, where all of them are bytes. -/
theorem card_bytes_of_quotient {d q : Nat} (hd : 0 < d) (hq : d * (q + 1) ≤ 256) :
    (Finset.univ.filter fun v : Byte => v.toNat / d = q).card = d := by
  rw [← Finset.card_range d]
  refine Finset.card_nbij' (fun v => v.toNat % d) (fun j => BitVec.ofNat 8 (d * q + j)) ?_ ?_ ?_ ?_
  · intro v _
    simpa using Nat.mod_lt v.toNat hd
  · intro j hj
    have hlt : j < d := by simpa using hj
    have hbyte : d * q + j < 256 := by rw [Nat.mul_succ] at hq; omega
    simp [Nat.mod_eq_of_lt hbyte, Nat.mul_add_div hd, Nat.div_eq_of_lt hlt]
  · intro v hv
    have hv : v.toNat / d = q := by simpa using hv
    simp [← hv, Nat.div_add_mod]
  · intro j hj
    have hlt : j < d := by simpa using hj
    have hbyte : d * q + j < 256 := by rw [Nat.mul_succ] at hq; omega
    simp [Nat.mod_eq_of_lt hbyte, Nat.mod_eq_of_lt hlt]

/-- Settles O18: a sample fixes one quotient of each channel, which 8, 4 and 8 bytes have. -/
theorem pixelFunctionFibres : Obligations.PixelFunctionFibres := by
  intro p
  have hfibre : (Finset.univ.filter fun t : Byte × Byte × Byte => rgb565 t.1 t.2.1 t.2.2 = p) =
      (Finset.univ.filter fun r : Byte => r.toNat / 8 = p.toNat / 0x800) ×ˢ
        (Finset.univ.filter fun g : Byte => g.toNat / 4 = p.toNat / 0x20 % 0x40) ×ˢ
          (Finset.univ.filter fun b : Byte => b.toNat / 8 = p.toNat % 0x20) := by
    ext t
    simp [rgb565_eq_iff]
  rw [hfibre, Finset.card_product, Finset.card_product, card_bytes_of_quotient (by decide) (by omega),
    card_bytes_of_quotient (by decide) (by omega), card_bytes_of_quotient (by decide) (by omega)]

/-! ## CVT565 -/

theorem exec_cvt565 (r g b : Byte) (s : State) :
    exec (.cvt565 r g b) s = .next (finish 4 ((rgb565 r g b).setWidth 64) (start s)) := rfl

/-- Settles O20: `finish` on a live block is OK with the sample, which `rgb565_toNat` gives. -/
theorem cvt565Converts : Obligations.Cvt565Converts := by
  refine fun r g b s => ⟨fun hlive => ?_, exec_dead (.cvt565 r g b)⟩
  rw [← rgb565_toNat, BitVec.ofNat_toNat, exec_cvt565, start_live hlive, finish_go]

end Sys2Proof.Machine
end

section
/-! SUPPORT and PROOF. The frame encoder pixel by pixel (40_pixel_codec.md R122, R123). -/

namespace Sys2Proof.Machine

/-! ## The pixels in row-major order -/

section
variable (img : Nat → Nat → Byte × Byte × Byte) {w h x y : Nat}

/-- The pixels of an image in the order of their numbers `i = y·w + x` (R123). -/
def pixelList (w h : Nat) : List (Byte × Byte × Byte) :=
  (List.range (w * h)).map fun i => img (i % w) (i / w)

theorem pixelList_length : (pixelList img w h).length = w * h := by simp [pixelList]

theorem pixelNumber_mod (hx : x < w) : (y * w + x) % w = x := by
  rw [Nat.mul_add_mod_self_right, Nat.mod_eq_of_lt hx]

theorem pixelNumber_div (hx : x < w) : (y * w + x) / w = y := by
  rw [Nat.mul_comm, Nat.mul_add_div (by omega), Nat.div_eq_of_lt hx, Nat.add_zero]

theorem pixelList_getElem? (hx : x < w) (hy : y < h) :
    (pixelList img w h)[y * w + x]? = some (img x y) := by
  have hi : y * w + x < w * h := by nlinarith
  rw [pixelList, List.getElem?_map, List.getElem?_range hi, Option.map_some, pixelNumber_mod hx,
    pixelNumber_div hx]

/-- What the double loop makes of each pixel, in the order of the pixel numbers. -/
theorem doubleLoop_eq_flatMap (f : Byte × Byte × Byte → List Byte) :
    ((List.range h).flatMap fun y => (List.range w).flatMap fun x => f (img x y)) =
      (pixelList img w h).flatMap f := by
  rw [pixelList, List.flatMap_map, range_mul_flatMap]
  refine List.flatMap_congr fun y _ => List.flatMap_congr fun x hx => ?_
  rw [pixelNumber_mod (List.mem_range.mp hx), pixelNumber_div (List.mem_range.mp hx)]

end

/-! ## The encoder on a list of pixels -/

/-- The sample of a pixel. -/
def pixelSample (q : Byte × Byte × Byte) : U16 := rgb565 q.1 q.2.1 q.2.2

theorem encodeImage_eq_flatMap (img : Nat → Nat → Byte × Byte × Byte) (w h : Nat) :
    encodeImage img w h = (pixelList img w h).flatMap fun q => sampleBytes (pixelSample q) :=
  doubleLoop_eq_flatMap img fun q => sampleBytes (pixelSample q)

section
variable (qs : List (Byte × Byte × Byte))

/-- The encoder reads three bytes a pixel and writes the two of its sample. -/
theorem encodeFrame_flatMap : encodeFrame (qs.flatMap fun q => [q.1, q.2.1, q.2.2]) =
    qs.flatMap fun q => sampleBytes (pixelSample q) := by
  induction qs with
  | nil => rfl
  | cons q qs ih => simp [encodeFrame, ih, pixelSample]

theorem flatMap_sampleBytes_length :
    (qs.flatMap fun q => sampleBytes (pixelSample q)).length = 2 * qs.length := by
  simp [List.length_flatMap, sampleBytes, Nat.mul_comm]

/-- The bytes of pixel `k` stand at `2k` and `2k + 1`. -/
theorem flatMap_sampleBytes_getElem? (k : Nat) :
    (qs.flatMap fun q => sampleBytes (pixelSample q))[2 * k]? =
        qs[k]?.map (fun q => hi8 (pixelSample q).toNat) ∧
      (qs.flatMap fun q => sampleBytes (pixelSample q))[2 * k + 1]? =
        qs[k]?.map fun q => lo8 (pixelSample q).toNat := by
  induction qs generalizing k with
  | nil => simp
  | cons q qs ih =>
    cases k with
    | zero => simp [sampleBytes]
    | succ k => simpa [Nat.mul_succ, sampleBytes] using ih k

end

/-- Settles O21: loop and encoder both give the pixels by number, two bytes each. -/
theorem frameEncoderIsDoubleLoop : Obligations.FrameEncoderIsDoubleLoop := by
  intro img w h bytes
  have hflat : encodeFrame bytes =
      (pixelList img w h).flatMap fun q => sampleBytes (pixelSample q) := by
    rw [← encodeFrame_flatMap, ← doubleLoop_eq_flatMap]
  rw [hflat, encodeImage_eq_flatMap]
  refine ⟨rfl, ?_, ?_⟩
  · rw [flatMap_sampleBytes_length, pixelList_length, Nat.mul_assoc]
  · intro x hx y hy p
    have hbytes := flatMap_sampleBytes_getElem? (pixelList img w h) (y * w + x)
    rwa [pixelList_getElem? img hx hy] at hbytes

end Sys2Proof.Machine
end

section
/-! SUPPORT and PROOF. LANES is not observable (40_pixel_codec.md R124): every piece of pseudocode runs
the same whatever LANES is, since the conversion alone reads it. -/

namespace Sys2Proof.Machine

/-! ## Runs of two converters -/

/-- The same state of a block whose converter has `lanes` lanes. -/
def State.withLanes (s : State) (lanes : { n : Nat // 0 < n }) : State :=
  { s with cfg := { s.cfg with lanes := lanes } }

/-- The same stand of an operation in a block whose converter has `lanes` lanes. -/
def Flow.withLanes (lanes : { n : Nat // 0 < n }) : Flow → Flow
  | .go s => .go (s.withLanes lanes)
  | .stop e s => .stop e (s.withLanes lanes)

/-- Two runs of `k` from states that differ in LANES alone end alike, in such states. -/
def LanesBlind (k : State → Flow) : Prop :=
  ∀ (s : State) (lanes : { n : Nat // 0 < n }), k (s.withLanes lanes) = (k s).withLanes lanes

theorem finish_withLanes (n : Nat) (v : U64) (f : Flow) (lanes : { n : Nat // 0 < n }) :
    finish n v (f.withLanes lanes) = (finish n v f).withLanes lanes := by
  cases f <;> rfl

theorem LanesBlind.bind {k l : State → Flow} (hk : LanesBlind k) (hl : LanesBlind l) :
    LanesBlind fun s => (k s).bind l := fun s lanes => by
  simp only [hk s lanes]
  cases k s with
  | go t => exact hl t lanes
  | stop e t => rfl

/-! ## The shared operations -/

theorem start_lanesBlind : LanesBlind start := fun s lanes => by
  cases h : s.dead
  · rw [start_live h, start_live (s := s.withLanes lanes) h]; rfl
  · rw [start_dead h, start_dead (s := s.withLanes lanes) h]; rfl

/-- A check of the state that reads no LANES. -/
theorem require_lanesBlind {c : State → Bool} (e : Status)
    (hc : ∀ s lanes, c (s.withLanes lanes) = c s) : LanesBlind fun s => require (c s) e s :=
  fun s lanes => by
    simp only [hc s lanes]
    cases c s <;> rfl

/-- The check of FBRD and QUERY, which reads the state the operation starts in. -/
theorem start_require_lanesBlind {c : State → Bool} (e : Status)
    (hc : ∀ s lanes, c (s.withLanes lanes) = c s) :
    LanesBlind fun s => (start s).bind (require (c s) e) := fun s lanes => by
  simp only [hc s lanes]
  exact start_lanesBlind.bind (require_lanesBlind (c := fun _ => c s) e fun _ _ => rfl) s lanes

theorem transact_lanesBlind (bs : List Byte) : LanesBlind (transact bs) := fun s lanes => by
  have hanswer : (s.withLanes lanes).answer 0 = s.answer 0 := rfl
  simp only [transact, hanswer]
  cases s.answer 0 <;> rfl

theorem sendChunks_lanesBlind (cs : List (List Byte)) : LanesBlind (sendChunks cs) := by
  induction cs with
  | nil => exact fun _ _ => rfl
  | cons c cs ih => exact (transact_lanesBlind c).bind ih

theorem track_withLanes (s : State) (lanes : { n : Nat // 0 < n }) (isData : Bool) (n : Nat) :
    ((s.withLanes lanes).driveDc isData).track isData n =
      ((s.driveDc isData).track isData n).withLanes lanes := by
  rw [send_prologue, send_prologue]
  rfl

theorem send_lanesBlind (bs : List Byte) (isData : Bool) (c : Nat) :
    LanesBlind (send bs isData c) := fun s lanes => by
  rw [send, track_withLanes, sendChunks_lanesBlind]
  rfl

theorem resetPulse_withLanes (s : State) (lanes : { n : Nat // 0 < n }) :
    (s.withLanes lanes).resetPulse = s.resetPulse.withLanes lanes := by
  rw [resetPulse_eq, resetPulse_eq]
  rfl

/-- The common beginning of RESET and BEGIN. -/
theorem resetPulse_lanesBlind : LanesBlind fun s => .go (s.resetPulse.setLc .reset) :=
  fun s lanes => congrArg (fun t => Flow.go (t.setLc .reset)) (resetPulse_withLanes s lanes)

theorem issueEntry_lanesBlind (e : InitRecord) : LanesBlind (issueEntry e) := by
  cases e with
  | wait ms => exact fun _ _ => rfl
  | cmd c d =>
    refine (send_lanesBlind [c] false chunkDefault).bind ?_
    by_cases hd : d = []
    · simp only [hd, if_true]
      exact fun _ _ => rfl
    · simp only [hd, if_false]
      exact send_lanesBlind d true chunkDefault

theorem issueAll_lanesBlind (es : List InitRecord) : LanesBlind (issueAll es) := by
  induction es with
  | nil => exact fun _ _ => rfl
  | cons e es ih => exact (issueEntry_lanesBlind e).bind fun s => ih (s.setSeqIdx (s.seqIdx + 1))

theorem initSequence_lanesBlind : LanesBlind initSequence := by
  have hissue : LanesBlind fun s => issueAll (initTable s.cfg) (s.setSeqIdx 0) :=
    fun s => issueAll_lanesBlind (initTable s.cfg) (s.setSeqIdx 0)
  exact hissue.bind fun _ _ => rfl

/-- A command whose code is a parameter of the block. -/
theorem sendCmd_lanesBlind (code : Params → Byte)
    (hcode : ∀ s lanes, code (State.withLanes s lanes).cfg = code s.cfg) :
    LanesBlind fun s => send [code s.cfg] false chunkDefault s := fun s lanes => by
  simp only [hcode s lanes]
  exact send_lanesBlind [code s.cfg] false chunkDefault s lanes

theorem windowSeq_lanesBlind (x0 y0 x1 y1 : Nat) : LanesBlind (windowSeq x0 y0 x1 y1) :=
  (sendCmd_lanesBlind Params.cmdCaset fun _ _ => rfl).bind <|
  (send_lanesBlind [hi8 x0, lo8 x0, hi8 x1, lo8 x1] true chunkDefault).bind <|
  (sendCmd_lanesBlind Params.cmdPaset fun _ _ => rfl).bind <|
  (send_lanesBlind [hi8 y0, lo8 y0, hi8 y1, lo8 y1] true chunkDefault).bind <|
  (sendCmd_lanesBlind Params.cmdRamwr fun _ _ => rfl).bind fun _ _ => rfl

theorem fullWindowSeq_lanesBlind : LanesBlind fullWindowSeq :=
  fun s => windowSeq_lanesBlind 0 0 (s.cfg.width - 1) (s.cfg.height - 1) s

/-- The one reader of LANES: it gives the scalar encoder's bytes (`encodeLanes_eq`). -/
theorem sendImage_eq (img : List Byte) :
    sendImage img = send (encodeFrame img) true chunkDefault :=
  funext fun s => by rw [sendImage, encodeLanes_eq s.cfg.lanes.property]

theorem sendImage_lanesBlind (img : List Byte) : LanesBlind (sendImage img) :=
  sendImage_eq img ▸ send_lanesBlind (encodeFrame img) true chunkDefault

theorem sendFrame_lanesBlind : LanesBlind fun s => sendImage s.fbImage s :=
  fun s => sendImage_lanesBlind s.fbImage s

/-! ## Every operation -/

theorem queryItem_withLanes (s : State) (lanes : { n : Nat // 0 < n }) (idx : Byte) :
    queryItem (s.withLanes lanes) idx = queryItem s idx := rfl

theorem okResult_withLanes (s : State) (lanes : { n : Nat // 0 < n }) (i : Instr) :
    okResult (s.withLanes lanes) i = okResult s i := by
  cases i <;> rfl

/-- Every operation is the completion of a piece of pseudocode that does not depend on LANES. -/
theorem exec_lanesBlind (i : Instr) : ∃ k, LanesBlind k ∧
    ∀ s, exec i s = .next (finish i.length (okResult s i) (k s)) := by
  cases i with
  | cvt565 r g b => exact ⟨start, start_lanesBlind, fun _ => rfl⟩
  | sendc chunk payload =>
    exact ⟨_, start_lanesBlind.bind (send_lanesBlind payload false (chunkOf chunk)), fun _ => rfl⟩
  | sendd chunk payload =>
    exact ⟨_, start_lanesBlind.bind (send_lanesBlind payload true (chunkOf chunk)), fun _ => rfl⟩
  | resetOp => exact ⟨_, start_lanesBlind.bind resetPulse_lanesBlind, fun _ => rfl⟩
  | initOp => exact ⟨_, start_lanesBlind.bind initSequence_lanesBlind, fun _ => rfl⟩
  | beginOp =>
    exact ⟨_, start_lanesBlind.bind (resetPulse_lanesBlind.bind initSequence_lanesBlind),
      fun _ => rfl⟩
  | setwin x0 y0 x1 y1 =>
    exact ⟨_, start_lanesBlind.bind ((require_lanesBlind .geometryError fun _ _ => rfl).bind
      (windowSeq_lanesBlind x0.toNat y0.toNat x1.toNat y1.toNat)), fun _ => rfl⟩
  | setwinf => exact ⟨_, start_lanesBlind.bind fullWindowSeq_lanesBlind, fun _ => rfl⟩
  | clear r g b =>
    exact ⟨_, start_lanesBlind.bind (l := fun s => .go (s.fbClear r g b)) fun _ _ => rfl,
      fun _ => rfl⟩
  | fbwr x y r g b =>
    exact ⟨_, start_lanesBlind.bind ((require_lanesBlind .geometryError fun _ _ => rfl).bind
      (l := fun s => .go (s.fbWrite (fbAddr s.cfg.width x.toNat y.toNat 0) [r, g, b]))
      fun _ _ => rfl), fun _ => rfl⟩
  | fbrd x y => exact ⟨_, start_require_lanesBlind .geometryError fun _ _ => rfl, fun _ => rfl⟩
  | display =>
    exact ⟨_, start_lanesBlind.bind (fullWindowSeq_lanesBlind.bind sendFrame_lanesBlind),
      fun _ => rfl⟩
  | dispimg w h pixels =>
    exact ⟨_, start_lanesBlind.bind ((require_lanesBlind .geometryError fun _ _ => rfl).bind
      (fullWindowSeq_lanesBlind.bind (sendImage_lanesBlind pixels))), fun _ => rfl⟩
  | query idx =>
    exact ⟨_, start_require_lanesBlind .illegalOp fun s lanes =>
      congrArg Option.isSome (queryItem_withLanes s lanes idx), fun _ => rfl⟩

/-- Settles O22: the conversion gives the scalar encoder's bytes, and each operation's two runs complete
alike (`exec_lanesBlind`). -/
theorem lanesNotObservable : Obligations.LanesNotObservable := by
  refine ⟨fun lanes img hlanes => encodeLanes_eq hlanes img, ?_⟩
  intro i s lanes other
  obtain ⟨k, hblind, hexec⟩ := exec_lanesBlind i
  refine ⟨_, hexec s, (hexec (s.withLanes lanes)).trans ?_⟩
  rw [okResult_withLanes, hblind, finish_withLanes]
  rfl

end Sys2Proof.Machine
end

section
/-! SUPPORT and PROOF. The framer (41_bus_framer.md): what the chunks of a send hold (R142), the operations
that are one send (R146, R147) with every answer of the bus agent, and RESET (R151). -/

namespace Sys2Proof.Machine

/-! ## The chunks of a send (R142) -/

section
variable {c : Nat} {bs : List Byte}

/-- The chunks number `ceil(N/c)`, which is the least `q` with `q·c ≥ N` (00_scope.md R13). -/
theorem chunks_length_le_iff (hc : 1 ≤ c) {q : Nat} :
    (chunks c bs).length ≤ q ↔ bs.length ≤ q * c := by
  rw [chunks_length hc, ceilDiv, ← Nat.ceilDiv_eq_add_pred_div, ceilDiv_le_iff_le_mul hc, Nat.mul_comm]

/-- Chunk `k` exists exactly where byte `k·c` does. -/
theorem lt_chunks_length_iff (hc : 1 ≤ c) {k : Nat} :
    k < (chunks c bs).length ↔ k * c < bs.length := by
  rw [← Nat.not_le, chunks_length_le_iff hc, Nat.not_le]

theorem full_chunk_length (hc : 1 ≤ c) {k : Nat} (hk : k + 1 < (chunks c bs).length) :
    ((bs.drop (k * c)).take c).length = c := by
  have hnext : (k + 1) * c < bs.length := (lt_chunks_length_iff hc).mp hk
  rw [Nat.succ_mul] at hnext
  rw [List.length_take, List.length_drop]
  omega

/-- The last chunk carries all the bytes from its own place on. -/
theorem last_chunk_length (hc : 1 ≤ c) {m : Nat} (hm : (chunks c bs).length = m + 1) :
    ((bs.drop (m * c)).take c).length = bs.length - m * c ∧
      1 ≤ bs.length - m * c ∧ bs.length - m * c ≤ c := by
  have hstart : m * c < bs.length := (lt_chunks_length_iff hc).mp (by omega)
  have hend : bs.length ≤ (m + 1) * c := (chunks_length_le_iff hc).mp hm.le
  rw [Nat.succ_mul] at hend
  rw [List.length_take, List.length_drop]
  omega

end

/-- Settles O23 (its name keeps apart from the model's `sendChunks`): the trace is that of `send_ok`, the
chunks are counted by `chunks_length_le_iff`. -/
theorem sendMakesChunks : Obligations.SendChunks := by
  intro bs isData c s hc n
  refine ⟨fun hok => ?trace, (chunks_length_le_iff hc).mp le_rfl,
    fun q hq => (chunks_length_le_iff hc).mpr hq, chunks_flatten hc bs,
    fun k hk => chunks_getElem? hc bs k ((lt_chunks_length_iff hc).mp hk),
    fun k hk => full_chunk_length hc hk, fun hn => ?last⟩
  case trace =>
    rw [send_ok bs isData c s hok]
    rfl
  case last => exact last_chunk_length hc (m := n - 1) (by omega)

/-! ## Operations that are one send (R144, R146, R147) -/

/-- An operation whose pseudocode is `f` and keeps the step index fails as the err of `f` says. -/
theorem Does.failsAt {i : Instr} {s u : State} {f : Flow} {evs : List Event} {v : U64}
    {haz : BitVec 3} {lc : Lifecycle} (hdoes : Does s f evs u haz lc)
    (hexec : exec i s = .next (finish i.length v f)) (hseq : f.state.seqIdx = s.seqIdx)
    {k : Nat} (hk : k < xferCount evs) (herr : BusErrAt s k) : FailsAt i s evs k haz lc := by
  obtain ⟨seq, hf⟩ := hdoes.err k hk herr
  rw [hf] at hseq hexec
  exact ⟨seq, fun _ _ => hseq, hexec⟩

section
variable {i : Instr} {s : State} {bs : List Byte} {isData : Bool} {c : Nat}
  (hexec : exec i s = .next (finish i.length 0 (send bs isData c s)))
include hexec

/-- One send with every answer ok. -/
theorem exec_send_ok (hok : BusOk s (xferCount (sendEvents bs isData c))) :
    exec i s = .next (State.responds { s.performs (sendEvents bs isData c) with
        dc := some (dcLevel isData)
        win := winAfter isData bs.length s.win
        haz := hazAfter isData bs.length s.win s.haz }
      i.length .ok 0) := by
  rw [hexec, (send_does bs isData c s).ok hok, finish_go]

/-- One send with the first err at chunk `k` (R144). -/
theorem exec_send_failsAt {k : Nat} (hk : k < xferCount (sendEvents bs isData c))
    (herr : BusErrAt s k) :
    FailsAt i s (sendEvents bs isData c) k (hazAfter isData bs.length s.win s.haz) s.lc :=
  (send_does bs isData c s).failsAt hexec (send_seqIdx bs isData c s) hk herr

end

theorem exec_sendc_live (chunk : U16) (p : List Byte) {s : State} (h : s.dead = false) :
    exec (.sendc chunk p) s =
      .next (finish (Instr.sendc chunk p).length 0 (send p false (chunkOf chunk) s)) := by
  rw [exec, execSendc, start_live h, Flow.bind_go]

theorem exec_sendd_live (chunk : U16) (p : List Byte) {s : State} (h : s.dead = false) :
    exec (.sendd chunk p) s =
      .next (finish (Instr.sendd chunk p).length 0 (send p true (chunkOf chunk) s)) := by
  rw [exec, execSendd, start_live h, Flow.bind_go]

/-- Settles O24: SENDC is one command send. -/
theorem sendcSendsCommandBytes : Obligations.SendcSendsCommandBytes := by
  intro chunk p s c evs
  exact ⟨exec_dead _, fun hlive hok => exec_send_ok (exec_sendc_live chunk p hlive) hok,
    fun k hk hlive herr => exec_send_failsAt (exec_sendc_live chunk p hlive) hk herr⟩

/-- Settles O25: SENDD is one data send. -/
theorem senddSendsDataBytes : Obligations.SenddSendsDataBytes := by
  intro chunk p s c evs
  exact ⟨exec_dead _, fun hlive hok => exec_send_ok (exec_sendd_live chunk p hlive) hok,
    fun k hk hlive herr => exec_send_failsAt (exec_sendd_live chunk p hlive) hk herr⟩

/-! ## A send of no bytes (R145) -/

@[simp] theorem winAfterData_zero (w : Window) : winAfterData 0 w = w := by
  cases w <;> simp [winAfterData]

@[simp] theorem hazAfterData_zero (w : Window) (h : BitVec 3) : hazAfterData 0 w h = h := by
  cases w <;> simp [hazAfterData]

/-- No transaction takes no answer, so that none has to be ok. -/
theorem busOk_zero (s : State) : BusOk s 0 := fun k hk => absurd hk (Nat.not_lt_zero k)

/-- Settles O26: the two sends without a transaction, of which `busOk_zero` is all that is asked. -/
theorem emptySendUsesNoBus : Obligations.EmptySendUsesNoBus := by
  intro chunk s hlive
  obtain ⟨-, hcmd, -⟩ := sendcSendsCommandBytes chunk [] s
  obtain ⟨-, hdata, -⟩ := senddSendsDataBytes chunk [] s
  refine ⟨hcmd hlive (busOk_zero s), (hdata hlive (busOk_zero s)).trans ?_⟩
  rw [List.length_nil, winAfterData_zero, hazAfterData_zero]
  rfl

/-! ## RESET (R150, R151, R152) -/

theorem exec_resetOp_live {s : State} (h : s.dead = false) :
    exec .resetOp s = .next ((s.resetPulse.setLc .reset).responds 1 .ok 0) := by
  rw [exec, execReset, start_live h, Flow.bind_go, finish_go]
  rfl

/-- With a reset line the pulse is its six events. -/
theorem resetPulse_present {s : State} (h : s.cfg.hasRst = true) :
    s.resetPulse = { s.performs
        [.rst .high, .wait 5, .rst .low, .wait 20, .rst .high, .wait 150] with
      rst := some .high
      win := .none } := by
  rw [resetPulse_eq, pulseEvents, if_pos h, if_pos h, if_pos h]

/-- Settles O27: the pulse with and without a reset line, then the lifecycle. -/
theorem resetPulsesLine : Obligations.ResetPulsesLine := by
  refine fun s => ⟨exec_dead _, fun hlive hline => ?_, fun hlive hline => ?_⟩
  · rw [exec_resetOp_live hlive, resetPulse_present hline]
    rfl
  · rw [exec_resetOp_live hlive, resetPulse_absent hline]
    rfl

end Sys2Proof.Machine
end

section
/-! SUPPORT and PROOF. The sequencer and the window (42_register_protocol.md): INIT (R164), SETWIN and
SETWINF (R167, R168) with every answer of the bus agent, and where a window can open (R169). -/

namespace Sys2Proof.Machine

/-! ## INIT (R160, R164) -/

theorem initTable_length (p : Params) : (initTable p).length = p.initBody.length + 3 := by
  rw [initTable, List.length_append, List.length_map]
  rfl

/-- The events of the body, record by record, and of the fixed tail. -/
theorem initEvents_eq (p : Params) : initEvents p =
    (p.initBody.flatMap fun e =>
      [.dc .low, .xfer [e.cmd]] ++ if e.data = [] then [] else sendEvents e.data true 64) ++
    [.dc .low, .xfer [p.cmdSlpout], .wait 120, .dc .low, .xfer [p.cmdDispon]] := by
  rw [initEvents, initTable, List.flatMap_append, List.flatMap_map]
  rfl

theorem exec_initOp_live {s : State} (h : s.dead = false) :
    exec .initOp s = .next (finish Instr.initOp.length 0 (initSequence s)) := by
  rw [exec, execInit, start_live h, Flow.bind_go]

/-- Settles O30: INIT is the init sequence alone (`initSequence_does`). -/
theorem initIssuesTable : Obligations.InitIssuesTable := by
  intro s evs
  have hdoes := initSequence_does s
  rw [initEvents_eq, initTable_length] at hdoes
  refine ⟨exec_dead _, fun hlive hok => ?allOk, fun k hk hlive herr => ?firstErr⟩
  case allOk =>
    rw [exec_initOp_live hlive, hdoes.ok hok, finish_go]
    rfl
  case firstErr =>
    obtain ⟨seq, hstop⟩ := hdoes.err k hk herr
    refine ⟨seq, fun hinit => absurd rfl hinit, ?_⟩
    rw [exec_initOp_live hlive, hstop, finish_stop]
    rfl

/-! ## Operations that are one window sequence (R165, R167, R168) -/

section
variable {i : Instr} {s : State} {x0 y0 x1 y1 : Nat}
  (hexec : exec i s = .next (finish i.length 0 (windowSeq x0 y0 x1 y1 s)))
include hexec

/-- One window sequence with every answer ok. -/
theorem exec_windowSeq_ok (hok : BusOk s 5) :
    exec i s = .next (State.responds { s.performs (windowEvents s.cfg x0 y0 x1 y1) with
        dc := some .low
        win := .opened (windowBytes x0 y0 x1 y1)
        haz := hazAfterCmd s.win s.haz }
      i.length .ok 0) := by
  rw [hexec, (windowSeq_does x0 y0 x1 y1 s).ok hok, finish_go]

/-- One window sequence with the first err at transaction `k`. -/
theorem exec_windowSeq_failsAt {k : Nat} (hk : k < 5) (herr : BusErrAt s k) :
    FailsAt i s (windowEvents s.cfg x0 y0 x1 y1) k (hazAfterCmd s.win s.haz) s.lc :=
  (windowSeq_does x0 y0 x1 y1 s).failsAt hexec (windowSeq_seqIdx x0 y0 x1 y1 s) hk herr

end

/-! ## SETWIN (R166, R167) -/

/-- The window check on the integers, where WIDTH - 1 and HEIGHT - 1 may be negative. -/
theorem validWin_iff (p : Params) (x0 y0 x1 y1 : Nat) : validWin p x0 y0 x1 y1 = true ↔
    x0 ≤ x1 ∧ (x1 : Int) ≤ (p.width : Int) - 1 ∧ y0 ≤ y1 ∧ (y1 : Int) ≤ (p.height : Int) - 1 := by
  rw [validWin, decide_eq_true_eq]
  omega

section
variable {x0 y0 x1 y1 : U16} {s : State}

theorem exec_setwin_valid (h : s.dead = false)
    (hvalid : validWin s.cfg x0.toNat y0.toNat x1.toNat y1.toNat = true) :
    exec (.setwin x0 y0 x1 y1) s = .next (finish (Instr.setwin x0 y0 x1 y1).length 0
      (windowSeq x0.toNat y0.toNat x1.toNat y1.toNat s)) := by
  rw [exec, execSetwin, start_live h, Flow.bind_go, hvalid, require_true, Flow.bind_go]

theorem exec_setwin_invalid (h : s.dead = false)
    (hinvalid : validWin s.cfg x0.toNat y0.toNat x1.toNat y1.toNat = false) :
    exec (.setwin x0 y0 x1 y1) s =
      .next (s.responds (Instr.setwin x0 y0 x1 y1).length .geometryError 0) := by
  rw [exec, execSetwin, start_live h, Flow.bind_go, hinvalid, require_false, Flow.bind_stop,
    finish_stop]

end

/-- Settles O31: the check turns the operation away, or SETWIN is one window sequence. -/
theorem setwinOpensWindow : Obligations.SetwinOpensWindow := by
  intro x0 y0 x1 y1 s valid evs
  have hvalidWin : validWin s.cfg x0.toNat y0.toNat x1.toNat y1.toNat = true ↔ valid :=
    validWin_iff _ _ _ _ _
  exact ⟨exec_dead _,
    fun hlive hno => exec_setwin_invalid hlive (Bool.eq_false_iff.mpr (mt hvalidWin.mp hno)),
    fun hlive hyes hok => exec_windowSeq_ok (exec_setwin_valid hlive (hvalidWin.mpr hyes)) hok,
    fun k hk hlive hyes herr =>
      exec_windowSeq_failsAt (exec_setwin_valid hlive (hvalidWin.mpr hyes)) hk herr⟩

/-! ## SETWINF (R168) -/

/-- Two bytes for each pixel of a panel of at least one pixel each way. -/
theorem windowBytes_fullPanel {width height : Nat} (hw : 1 ≤ width) (hh : 1 ≤ height) :
    windowBytes 0 0 (width - 1) (height - 1) = 2 * width * height := by
  rw [windowBytes, Nat.sub_zero, Nat.sub_zero, Nat.sub_add_cancel hw, Nat.sub_add_cancel hh]

theorem exec_setwinf_live {s : State} (h : s.dead = false) :
    exec .setwinf s = .next (finish Instr.setwinf.length 0
      (windowSeq 0 0 (s.cfg.width - 1) (s.cfg.height - 1) s)) := by
  rw [exec, execSetwinf, start_live h, Flow.bind_go, fullWindowSeq]

/-- Settles O32: SETWINF is one window sequence, with no check before it. -/
theorem setwinfOpensFullPanel : Obligations.SetwinfOpensFullPanel := by
  intro s hwidth hheight evs
  rw [← windowBytes_fullPanel hwidth hheight]
  exact ⟨exec_dead _, fun hlive hok => exec_windowSeq_ok (exec_setwinf_live hlive) hok,
    fun k hk hlive herr => exec_windowSeq_failsAt (exec_setwinf_live hlive) hk herr⟩

/-! ## Where a window opens (R169) -/

/-- The next `n` answers are all ok, or one of them is the first err. -/
theorem busOk_or_busErrAt (s : State) (n : Nat) : BusOk s n ∨ ∃ k < n, BusErrAt s k := by
  induction n with
  | zero => exact .inl (busOk_zero s)
  | succ n ih =>
    rcases ih with hok | ⟨k, hk, herr⟩
    · cases hn : s.answer n with
      | ok => exact .inl fun k hk => (Nat.lt_succ_iff_lt_or_eq.mp hk).elim (hok k) (· ▸ hn)
      | err => exact .inr ⟨n, n.lt_succ_self, hok, hn⟩
    · exact .inr ⟨k, by omega, herr⟩

/-- The response an operation appends is the one it is completed with. -/
theorem State.responds_last {u : State} {n : Nat} {e : Status} {v : U64} {old : List Response}
    {r : Response} (h : (u.responds n e v).responses = old ++ [r]) : (⟨e, v⟩ : Response) = r :=
  List.singleton_inj.mp (List.append_inj' h rfl).2

/-- A SETWIN that answers OK is a window sequence with every answer ok. -/
theorem setwin_ok_win {x0 y0 x1 y1 : U16} {s t : State} {v : U64}
    (hexec : exec (.setwin x0 y0 x1 y1) s = .next t)
    (hresp : t.responses = s.responses ++ [⟨.ok, v⟩]) :
    t.win = .opened (windowBytes x0.toNat y0.toNat x1.toNat y1.toNat) := by
  have endsIn : ∀ {u : State}, exec (.setwin x0 y0 x1 y1) s = .next u → t = u :=
    fun h => Host.Outcome.next.inj (hexec.symm.trans h)
  cases hlive : s.dead with
  | true =>
    obtain rfl := endsIn (exec_dead _ hlive)
    cases State.responds_last hresp
  | false =>
    cases hvalid : validWin s.cfg x0.toNat y0.toNat x1.toNat y1.toNat with
    | false =>
      obtain rfl := endsIn (exec_setwin_invalid hlive hvalid)
      cases State.responds_last hresp
    | true =>
      have hseq := exec_setwin_valid hlive hvalid
      rcases busOk_or_busErrAt s 5 with hok | ⟨k, hk, herr⟩
      · obtain rfl := endsIn (exec_windowSeq_ok hseq hok)
        rfl
      · obtain ⟨seq, -, hstop⟩ := exec_windowSeq_failsAt hseq hk herr
        obtain rfl := endsIn hstop
        cases State.responds_last hresp

/-- Where the pseudocode `k` leaves a window open, one was open before it. -/
def OpensNoWindow (k : State → Flow) : Prop :=
  ∀ s r, (k s).state.win = .opened r → ∃ q, s.win = .opened q

section
variable {k l : State → Flow}

theorem Keeps.opensNoWindow (hk : Keeps State.win k) : OpensNoWindow k :=
  fun s r hr => ⟨r, (hk s).symm.trans hr⟩

/-- A stretch on the bus that is given no window to open. -/
theorem Reaches.opensNoWindow {bound : Nat} (hk : ∀ s, ∃ evs, Reaches bound none s (k s) evs) :
    OpensNoWindow k := fun s r hr => by
  obtain ⟨evs, hreach⟩ := hk s
  rcases hreach.win r hr with ⟨q, hq, -⟩ | ⟨q, hlim, -⟩
  · exact ⟨q, hq⟩
  · cases hlim

theorem OpensNoWindow.bind (hk : OpensNoWindow k) (hl : OpensNoWindow l) :
    OpensNoWindow fun s => (k s).bind l := fun s r hr => by
  have hks := hk s
  cases h : k s with
  | go t =>
    simp only [h, Flow.bind_go] at hr hks
    obtain ⟨q, hq⟩ := hl t r hr
    exact hks q hq
  | stop e t =>
    simp only [h, Flow.bind_stop] at hr hks
    exact hks r hr

/-- What every operation begins with opens no window. -/
theorem OpensNoWindow.started (hk : OpensNoWindow k) : OpensNoWindow fun s => (start s).bind k :=
  start_keeps.opensNoWindow.bind hk

end

theorem send_opensNoWindow (bs : List Byte) (isData : Bool) {c : Nat} (hc : 1 ≤ c) :
    OpensNoWindow (send bs isData c) := Reaches.opensNoWindow (send_reaches none bs isData hc)

theorem initSequence_opensNoWindow : OpensNoWindow initSequence :=
  Reaches.opensNoWindow (initSequence_reaches none)

/-- The common beginning of RESET and BEGIN. -/
theorem resetPulse_opensNoWindow : OpensNoWindow fun s => .go (s.resetPulse.setLc .reset) :=
  Reaches.opensNoWindow (k := fun s => .go s.resetPulse)
    fun s => ⟨_, resetPulse_reaches 0 none s⟩

/-- Every operation has a window sequence in it or opens no window. -/
theorem exec_windowSeq_or_opensNoWindow (i : Instr) (s : State) :
    ((∃ a b c d, i = .setwin a b c d) ∨ i = .setwinf ∨ i = .display ∨
      ∃ w h px, i = .dispimg w h px) ∨
    ∃ k, OpensNoWindow k ∧ exec i s = .next (finish i.length (okResult s i) (k s)) := by
  have check : ∀ (c : Bool) (e : Status), OpensNoWindow (require c e) :=
    fun c e => (require_keeps (fun _ => c) e).opensNoWindow
  cases i with
  | setwin a b c d => exact .inl (.inl ⟨a, b, c, d, rfl⟩)
  | setwinf => exact .inl (.inr (.inl rfl))
  | display => exact .inl (.inr (.inr (.inl rfl)))
  | dispimg w h px => exact .inl (.inr (.inr (.inr ⟨w, h, px, rfl⟩)))
  | cvt565 r g b => exact .inr ⟨_, start_keeps.opensNoWindow, rfl⟩
  | sendc chunk p => exact .inr ⟨_, (send_opensNoWindow p false (chunkOf_pos chunk)).started, rfl⟩
  | sendd chunk p => exact .inr ⟨_, (send_opensNoWindow p true (chunkOf_pos chunk)).started, rfl⟩
  | resetOp => exact .inr ⟨_, resetPulse_opensNoWindow.started, rfl⟩
  | initOp => exact .inr ⟨_, initSequence_opensNoWindow.started, rfl⟩
  | beginOp =>
    exact .inr ⟨_, (resetPulse_opensNoWindow.bind initSequence_opensNoWindow).started, rfl⟩
  | clear r g b =>
    have hclear : Keeps State.win fun s => .go (s.fbClear r g b) := fun _ => rfl
    exact .inr ⟨_, hclear.opensNoWindow.started, rfl⟩
  | fbwr x y r g b =>
    have hwrite : Keeps State.win fun s =>
        (require (onPanel s.cfg x.toNat y.toNat) .geometryError s).bind fun s =>
          .go (s.fbWrite (fbAddr s.cfg.width x.toNat y.toNat 0) [r, g, b]) :=
      (require_keeps (fun s => onPanel s.cfg x.toNat y.toNat) _).bind fun _ => rfl
    exact .inr ⟨_, hwrite.opensNoWindow.started, rfl⟩
  | fbrd x y => exact .inr ⟨_, (check (onPanel s.cfg x.toNat y.toNat) _).started, rfl⟩
  | query idx => exact .inr ⟨_, (check (queryItem s idx).isSome _).started, rfl⟩

/-- Settles O33: the first clause is `setwin_ok_win`, and every operation without a window sequence opens
no window. -/
theorem windowsOpenOnlyBySequence : Obligations.WindowsOpenOnlyBySequence := by
  refine ⟨fun x0 y0 x1 y1 s t v hexec hresp => ?_, fun i s t r hexec hwin hno => ?_⟩
  · rw [setwin_ok_win hexec hresp, windowBytes, Nat.mul_assoc]
  · refine (exec_windowSeq_or_opensNoWindow i s).resolve_right ?_
    rintro ⟨k, hopens, hk⟩
    obtain rfl := Host.Outcome.next.inj (hexec.symm.trans hk)
    obtain ⟨q, hq⟩ := hopens s r hwin
    exact hno q hq

end Sys2Proof.Machine
end

section
/-! SUPPORT and PROOF. The frame buffer's operations (43_facade.md): CLEAR (R182) and its loop over the
pixels, FBWR (R183) and FBRD (R184) on and off the panel. -/

namespace Sys2Proof.Machine

/-! ## CLEAR (R182) -/

theorem exec_clear_live (r g b : Byte) {s : State} (h : s.dead = false) :
    exec (.clear r g b) s = .next ((s.fbClear r g b).responds 4 .ok 0) := by
  rw [exec, execClear, start_live h, Flow.bind_go, finish_go]
  rfl

/-- CLEAR stores at the address of a channel that channel of its colour. -/
theorem channelAt_fbAddr (r g b : Byte) (w x y : Nat) {c : Nat} (hc : c < 3) :
    channelAt r g b (fbAddr w x y c) = channelAt r g b c := by
  rw [channelAt, fbAddr_mod w x y c hc, channelAt, Nat.mod_eq_of_lt hc]

theorem lookup_fbClear_pixel (r g b : Byte) (s : State) {x y c : Nat} (hx : x < s.cfg.width)
    (hy : y < s.cfg.height) (hc : c < 3) :
    Mem.lookup (s.fbClear r g b).fb (fbAddr s.cfg.width x y c) = some (channelAt r g b c) := by
  rw [State.fbClear_fb, Mem.lookup_fill, if_pos (fbAddr_lt hx hy hc), channelAt_fbAddr r g b _ x y hc]

theorem lookup_fbClear_beyond (r g b : Byte) (s : State) {a : Nat} (ha : s.cfg.fbSize ≤ a) :
    Mem.lookup (s.fbClear r g b).fb a = Mem.lookup s.fb a := by
  rw [State.fbClear_fb, Mem.lookup_fill, if_neg ha.not_gt]

/-- Settles O35: CLEAR is `State.fbClear`, read at a pixel's addresses and beyond the frame buffer. -/
theorem clearFillsFrameBuffer : Obligations.ClearFillsFrameBuffer := by
  intro r g b s
  refine ⟨exec_dead _, fun hlive => ⟨_, exec_clear_live r g b hlive, fun x hx y hy => ?pixel,
    fun a ha => lookup_fbClear_beyond r g b s ha⟩⟩
  case pixel =>
    exact ⟨lookup_fbClear_pixel r g b s hx hy (c := 0) (by decide),
      lookup_fbClear_pixel r g b s hx hy (c := 1) (by decide),
      lookup_fbClear_pixel r g b s hx hy (c := 2) (by decide)⟩

/-! ## CLEAR's loop (R182) -/

theorem Mem.fill_zero (m : List Host.Cell) (f : Nat → Byte) : Mem.fill m 0 f = m := by
  cases m <;> simp [Mem.fill]

/-- On canonical storage a fill grows by one write at its end. -/
theorem Mem.write_fill {m : List Host.Cell} (hm : Mem.wf m) (n : Nat) (f : Nat → Byte) :
    Mem.write (Mem.fill m n f) n (f n) = Mem.fill m (n + 1) f := by
  refine Mem.ext_of_lookup (Mem.wf_write _ _ _ (Mem.wf_fill m n f hm)) (Mem.wf_fill m (n + 1) f hm)
    fun a => ?_
  rw [Mem.lookup_write, Mem.lookup_fill, Mem.lookup_fill]
  rcases Nat.lt_trichotomy a n with hlt | rfl | hgt
  · rw [if_neg hlt.ne, if_pos hlt, if_pos (Nat.lt_succ_of_lt hlt)]
  · rw [if_pos rfl, if_pos a.lt_succ_self]
  · rw [if_neg hgt.ne', if_neg hgt.not_gt, if_neg (Nat.not_lt.mpr hgt)]

/-- The three bytes of pixel number `i` extend a fill of the pixels before it. -/
theorem Mem.writes_fill_pixel {m : List Host.Cell} (hm : Mem.wf m) (r g b : Byte) (i : Nat) :
    Mem.writes (Mem.fill m (3 * i) (channelAt r g b)) (3 * i) [r, g, b] =
      Mem.fill m (3 * (i + 1)) (channelAt r g b) := by
  have hr : channelAt r g b (3 * i) = r := by simp [channelAt]
  have hg : channelAt r g b (3 * i + 1) = g := by simp [channelAt]
  have hb : channelAt r g b (3 * i + 2) = b := by simp [channelAt]
  calc Mem.writes (Mem.fill m (3 * i) (channelAt r g b)) (3 * i) [r, g, b]
      = Mem.write (Mem.write (Mem.write (Mem.fill m (3 * i) (channelAt r g b))
          (3 * i) (channelAt r g b (3 * i))) (3 * i + 1) (channelAt r g b (3 * i + 1)))
          (3 * i + 2) (channelAt r g b (3 * i + 2)) := by rw [hr, hg, hb]; rfl
    _ = Mem.fill m (3 * (i + 1)) (channelAt r g b) := by
      rw [Mem.write_fill hm, Mem.write_fill hm, Mem.write_fill hm, Nat.mul_succ]

theorem foldl_writes_eq_fill {m : List Host.Cell} (hm : Mem.wf m) (r g b : Byte) (n : Nat) :
    (List.range n).foldl (fun m i => Mem.writes m (3 * i) [r, g, b]) m =
      Mem.fill m (3 * n) (channelAt r g b) := by
  induction n with
  | zero => exact (Mem.fill_zero m _).symm
  | succ n ih =>
    rw [List.range_succ, List.foldl_append, ih]
    exact Mem.writes_fill_pixel hm r g b n

/-- The double loop meets the pixels in the order of their numbers `y·w + x` (20_memory.md R63). -/
theorem clearLoop_eq_foldl (p : Params) (r g b : Byte) (m : List Host.Cell) :
    clearLoop p r g b m =
      (List.range (p.width * p.height)).foldl (fun m i => Mem.writes m (3 * i) [r, g, b]) m := by
  have hnumbers : List.range (p.width * p.height) = (List.range p.height).flatMap fun y =>
      (List.range p.width).flatMap fun x => [y * p.width + x] := by
    rw [← range_mul_flatMap p.width p.height fun i => [i], List.flatMap_singleton']
  rw [hnumbers]
  simp only [List.foldl_flatMap]
  rfl

/-- Settles O36: loop and pass are both the fill of all pixels by number. -/
theorem clearIsItsLoop : Obligations.ClearIsItsLoop := by
  intro r g b s hm
  rw [clearLoop_eq_foldl, foldl_writes_eq_fill hm, State.fbClear_fb, Params.fbSize, Nat.mul_assoc]

/-! ## FBWR and FBRD off the panel (20_memory.md R71) -/

section
variable {x y : U16} {s : State}

theorem onPanel_eq_false (hoff : s.cfg.width ≤ x.toNat ∨ s.cfg.height ≤ y.toNat) :
    onPanel s.cfg x.toNat y.toNat = false := decide_eq_false (by omega)

theorem exec_fbwr_offPanel (r g b : Byte) (h : s.dead = false)
    (hoff : s.cfg.width ≤ x.toNat ∨ s.cfg.height ≤ y.toNat) :
    exec (.fbwr x y r g b) s = .next (s.responds 8 .geometryError 0) := by
  rw [exec, execFbwr, start_live h, Flow.bind_go, onPanel_eq_false hoff, require_false,
    Flow.bind_stop, finish_stop]
  rfl

theorem exec_fbrd_offPanel (h : s.dead = false)
    (hoff : s.cfg.width ≤ x.toNat ∨ s.cfg.height ≤ y.toNat) :
    exec (.fbrd x y) s = .next (s.responds 5 .geometryError 0) := by
  rw [exec, execFbrd, start_live h, Flow.bind_go, onPanel_eq_false hoff, require_false, finish_stop]
  rfl

end

/-! ## FBWR (R183) -/

theorem Mem.lookup_writes_inside (m : List Host.Cell) (a : Nat) (bs : List Byte) {k : Nat}
    (hk : k < bs.length) : Mem.lookup (Mem.writes m a bs) (a + k) = some bs[k] := by
  rw [Mem.lookup_writes, if_pos (by omega), Nat.add_sub_cancel_left, List.getElem?_eq_getElem hk]

theorem Mem.lookup_writes_outside (m : List Host.Cell) (a : Nat) (bs : List Byte) {c : Nat}
    (hc : c < a ∨ a + bs.length ≤ c) : Mem.lookup (Mem.writes m a bs) c = Mem.lookup m c := by
  rw [Mem.lookup_writes, if_neg (by omega)]

/-- Settles O37: the check turns the operation away, or FBWR is one write of three bytes. -/
theorem fbwrWritesPixel : Obligations.FbwrWritesPixel := by
  intro x y r g b s a
  refine ⟨exec_dead _, fun hlive hoff => exec_fbwr_offPanel r g b hlive hoff,
    fun hlive hx hy => ⟨_, exec_fbwr_onPanel r g b hlive hx hy, ?red, ?green, ?blue,
      fun c hc => ?other⟩⟩
  case red => exact Mem.lookup_writes_inside s.fb a [r, g, b] (k := 0) (by simp)
  case green => exact Mem.lookup_writes_inside s.fb a [r, g, b] (k := 1) (by simp)
  case blue => exact Mem.lookup_writes_inside s.fb a [r, g, b] (k := 2) (by simp)
  case other => exact Mem.lookup_writes_outside s.fb a [r, g, b] hc

/-! ## FBRD (R184) -/

theorem State.fbRead_three (s : State) (a : Nat) :
    s.fbRead a 3 = [s.fbByte a, s.fbByte (a + 1), s.fbByte (a + 2)] := by
  rw [State.fbRead_eq]
  rfl

/-- Settles O38: the check turns the operation away, or FBRD packs the three bytes it reads. -/
theorem fbrdReadsPixel : Obligations.FbrdReadsPixel := by
  intro x y s a
  refine ⟨exec_dead _, fun hlive hoff => exec_fbrd_offPanel hlive hoff, fun hlive hx hy => ?_⟩
  rw [exec_fbrd_onPanel hlive hx hy (s.fbRead_three a), packRgb_eq_ofNat]

end Sys2Proof.Machine
end

section
/-! SUPPORT and PROOF. The operations of the facade that reach the bus (43_facade.md), with every
answer of the bus agent: DISPLAY and DISPIMG (R185, R186), which show an image, and BEGIN (R181). -/

namespace Sys2Proof.Machine

/-! ## The image as the double loop reads it (40_pixel_codec.md R122) -/

theorem encodeImage_length (img : Nat → Nat → Byte × Byte × Byte) (w h : Nat) :
    (encodeImage img w h).length = 2 * w * h := by
  rw [encodeImage_eq_flatMap, flatMap_sampleBytes_length, pixelList_length, Nat.mul_assoc]

theorem encodeImage_congr {img img' : Nat → Nat → Byte × Byte × Byte} {w h : Nat}
    (heq : ∀ x < w, ∀ y < h, img x y = img' x y) : encodeImage img w h = encodeImage img' w h :=
  List.flatMap_congr fun y hy => List.flatMap_congr fun x hx => by
    rw [heq x (List.mem_range.mp hx) y (List.mem_range.mp hy)]

/-- The encoder of a row-major byte sequence is the double loop over its pixels. -/
theorem encodeFrame_eq_encodeImage {img : List Byte} {w h : Nat} (hlen : img.length = 3 * (w * h)) :
    encodeFrame img = encodeImage (pixelOf img w) w h := by
  rw [encodeFrame_eq_flatMap img (w * h) hlen, range_mul_flatMap]
  rfl

theorem fbImage_length (s : State) : s.fbImage.length = 3 * (s.cfg.width * s.cfg.height) := by
  rw [State.fbImage, State.fbRead, Mem.run_length, Params.fbSize, Nat.mul_assoc]

theorem fbImage_getD (s : State) {a : Nat} (ha : a < s.cfg.fbSize) :
    s.fbImage.getD a 0 = s.fbByte a := by
  rw [State.fbImage, State.fbRead_eq, List.getD_eq_getElem?_getD, List.getElem?_map,
    List.getElem?_range' ha]
  simp

/-- A pixel of the image DISPLAY sends is the pixel's three bytes of the frame buffer. -/
theorem pixelOf_fbImage (s : State) {x y : Nat} (hx : x < s.cfg.width) (hy : y < s.cfg.height) :
    pixelOf s.fbImage s.cfg.width x y =
      (s.fbByte (fbAddr s.cfg.width x y 0), s.fbByte (fbAddr s.cfg.width x y 1),
        s.fbByte (fbAddr s.cfg.width x y 2)) := by
  have channel : ∀ c < 3, s.fbImage.getD (fbAddr s.cfg.width x y c) 0 =
      s.fbByte (fbAddr s.cfg.width x y c) := fun c hc => fbImage_getD s (fbAddr_lt hx hy hc)
  exact Prod.ext (channel 0 (by decide))
    (Prod.ext (channel 1 (by decide)) (channel 2 (by decide)))

/-! ## Showing an image: the full-panel window, then its pixels (R185, R186) -/

/-- The events of showing the image whose encoding is `bytes`. -/
def showEvents (p : Params) (bytes : List Byte) : List Event :=
  windowEvents p 0 0 (p.width - 1) (p.height - 1) ++ sendEvents bytes true 64

/-- `s` after the full-panel window sequence with every answer ok (42_register_protocol.md R168). -/
def State.fullWindowOpened (s : State) : State :=
  { s.performs (windowEvents s.cfg 0 0 (s.cfg.width - 1) (s.cfg.height - 1)) with
    dc := some .low
    win := .opened (windowBytes 0 0 (s.cfg.width - 1) (s.cfg.height - 1))
    haz := hazAfterCmd s.win s.haz }

theorem xferCount_showEvents (p : Params) (bytes : List Byte) :
    xferCount (showEvents p bytes) = 5 + (bytes.length + 63) / 64 := by
  rw [showEvents, xferCount_append, xferCount_windowEvents, xferCount_sendEvents,
    chunks_length (by decide)]
  rfl

section
variable {s : State} {img : State → List Byte} {bytes : List Byte}

/-- Neither the window sequence nor the pixel send writes the step index. -/
theorem showImage_seqIdx (s : State) (img : State → List Byte) :
    ((fullWindowSeq s).bind fun t => sendImage (img t) t).state.seqIdx = s.seqIdx :=
  (bind_keeps State.seqIdx _ _ fun _ => send_seqIdx _ _ _ _).trans (windowSeq_seqIdx _ _ _ _ s)

variable (hwidth : 1 ≤ s.cfg.width) (hheight : 1 ≤ s.cfg.height)
  (himg : encodeFrame (img s.fullWindowOpened) = bytes)
  (hlen : bytes.length = 2 * s.cfg.width * s.cfg.height)
include hwidth hheight himg hlen

/-- The pixels fill the window exactly, so that the send ends in OPEN(0) without a hazard of its own. -/
theorem showImage_does :
    Does s ((fullWindowSeq s).bind fun t => sendImage (img t) t) (showEvents s.cfg bytes)
      { s.performs (showEvents s.cfg bytes) with
        dc := some .high
        win := .opened 0
        haz := hazAfterCmd s.win s.haz }
      (hazAfterCmd s.win s.haz) s.lc := by
  have hbytes : encodeLanes s.cfg.lanes.val (img s.fullWindowOpened) = bytes := by
    rw [encodeLanes_eq s.cfg.lanes.property, himg]
  have hpixels := sendImage_does (img s.fullWindowOpened) s.fullWindowOpened _ rfl
    (by rw [windowBytes_fullPanel hwidth hheight, ← hlen]; exact congrArg List.length hbytes)
  have hboth := (windowSeq_does 0 0 (s.cfg.width - 1) (s.cfg.height - 1) s).bind
    (k := fun t => sendImage (img t) t) hpixels
  rw [show encodeLanes s.fullWindowOpened.cfg.lanes.val (img s.fullWindowOpened) = bytes
    from hbytes] at hboth
  rw [showEvents, ← State.performs_performs]
  exact hboth

variable {i : Instr}
  (hexec : exec i s = .next (finish i.length 0
    ((fullWindowSeq s).bind fun t => sendImage (img t) t)))
include hexec

/-- An operation that shows an image, with every answer ok. -/
theorem exec_showImage_ok (hok : BusOk s (xferCount (showEvents s.cfg bytes))) :
    exec i s = .next (State.responds { s.performs (showEvents s.cfg bytes) with
        dc := some .high
        win := .opened 0
        haz := hazAfterCmd s.win s.haz }
      i.length .ok 0) := by
  rw [hexec, (showImage_does hwidth hheight himg hlen).ok hok, finish_go]

/-- An operation that shows an image, with the first err at transaction `k`. -/
theorem exec_showImage_failsAt {k : Nat} (hk : k < xferCount (showEvents s.cfg bytes))
    (herr : BusErrAt s k) :
    FailsAt i s (showEvents s.cfg bytes) k (hazAfterCmd s.win s.haz) s.lc :=
  (showImage_does hwidth hheight himg hlen).failsAt hexec (showImage_seqIdx s img) hk herr

end

/-! ## DISPLAY (R185) -/

theorem exec_display_live {s : State} (h : s.dead = false) :
    exec .display s = .next (finish Instr.display.length 0
      ((fullWindowSeq s).bind fun t => sendImage t.fbImage t)) := by
  rw [exec, execDisplay, start_live h, Flow.bind_go]

/-- Settles O41: DISPLAY shows the frame buffer, which the window sequence leaves as it was. -/
theorem displaySendsFrameBuffer : Obligations.DisplaySendsFrameBuffer := by
  intro s hwidth hheight image evs
  have hlen : image.length = 2 * s.cfg.width * s.cfg.height := encodeImage_length _ _ _
  have himg : encodeFrame s.fullWindowOpened.fbImage = image := by
    rw [show s.fullWindowOpened.fbImage = s.fbImage from rfl,
      encodeFrame_eq_encodeImage (fbImage_length s)]
    exact encodeImage_congr fun x hx y hy => pixelOf_fbImage s hx hy
  refine ⟨hlen, ?_, exec_dead _,
    fun hlive hok => exec_showImage_ok hwidth hheight himg hlen (exec_display_live hlive) hok,
    fun k hk hlive herr =>
      exec_showImage_failsAt hwidth hheight himg hlen (exec_display_live hlive) hk herr⟩
  rw [← hlen]
  exact xferCount_showEvents s.cfg image

/-! ## DISPIMG (R186) -/

section
variable {w h : U16} {s : State} (pixels : List Byte) (hlive : s.dead = false)
include hlive

theorem exec_dispimg_fits (hsize : w.toNat = s.cfg.width ∧ h.toNat = s.cfg.height) :
    exec (.dispimg w h pixels) s = .next (finish (Instr.dispimg w h pixels).length 0
      ((fullWindowSeq s).bind (sendImage pixels))) := by
  rw [exec, execDispimg, start_live hlive, Flow.bind_go, decide_eq_true hsize, require_true,
    Flow.bind_go]

theorem exec_dispimg_mismatch (hsize : ¬ (w.toNat = s.cfg.width ∧ h.toNat = s.cfg.height)) :
    exec (.dispimg w h pixels) s =
      .next (s.responds (Instr.dispimg w h pixels).length .geometryError 0) := by
  rw [exec, execDispimg, start_live hlive, Flow.bind_go, decide_eq_false hsize, require_false,
    Flow.bind_stop, finish_stop]

end

/-- Settles O42: the size check turns the operation away, or DISPIMG shows its payload. -/
theorem dispimgSendsPayload : Obligations.DispimgSendsPayload := by
  intro w h pixels s hwidth hheight hwf image evs len
  have hlen : image.length = 2 * s.cfg.width * s.cfg.height := encodeImage_length _ _ _
  have himg : w.toNat = s.cfg.width → h.toNat = s.cfg.height → encodeFrame pixels = image :=
    fun hw hh => encodeFrame_eq_encodeImage (by
      rw [of_decide_eq_true hwf, hw, hh, Nat.mul_assoc])
  exact ⟨exec_dead _,
    fun hlive hsize => exec_dispimg_mismatch pixels hlive (by omega),
    fun hlive hw hh hok => exec_showImage_ok hwidth hheight (himg hw hh) hlen
      (exec_dispimg_fits pixels hlive ⟨hw, hh⟩) hok,
    fun k hk hlive hw hh herr => exec_showImage_failsAt hwidth hheight (himg hw hh) hlen
      (exec_dispimg_fits pixels hlive ⟨hw, hh⟩) hk herr⟩

/-! ## BEGIN (R181) -/

theorem exec_beginOp_live {s : State} (h : s.dead = false) :
    exec .beginOp s = .next (finish Instr.beginOp.length 0
      (initSequence (s.resetPulse.setLc .reset))) := by
  rw [exec, execBegin, start_live h, Flow.bind_go]

theorem pulseEvents_lines (p : Params) (dc rst : Option Level) :
    xferCount (pulseEvents p) = 0 ∧ lastDc dc (pulseEvents p) = dc ∧
      lastRst rst (pulseEvents p) = if p.hasRst then some .high else rst := by
  cases h : p.hasRst <;> simp [pulseEvents, h, xferCount, lastDc, lastRst]

/-- The pulse reaches no bus, so that it is a step of no transaction before whatever follows. -/
theorem resetPulse_does (s : State) (haz : BitVec 3) (lc : Lifecycle) :
    Does s (.go (s.resetPulse.setLc .reset)) (pulseEvents s.cfg) (s.resetPulse.setLc .reset) haz lc := by
  obtain ⟨hxfers, hdc, hrst⟩ := pulseEvents_lines s.cfg s.dc s.rst
  refine Does.silent _ haz lc hxfers ?_
  rw [hdc, hrst, resetPulse_eq]
  rfl

/-- The hazards after the first command of the table: a pulse has closed the window before it. -/
theorem hazAfterCmd_resetPulse (s : State) :
    hazAfterCmd s.resetPulse.win s.resetPulse.haz =
      if s.cfg.hasRst then s.haz else hazAfterCmd s.win s.haz := by
  rw [resetPulse_eq]
  cases s.cfg.hasRst <;> rfl

/-- The pulse, then the table: an err in it finds the lifecycle in RESET. -/
theorem beginSequence_does (s : State) :
    Does s (initSequence (s.resetPulse.setLc .reset)) (pulseEvents s.cfg ++ initEvents s.cfg)
      { s.performs (pulseEvents s.cfg ++ initEvents s.cfg) with
        dc := some .low
        rst := if s.cfg.hasRst then some .high else s.rst
        win := .none
        haz := if s.cfg.hasRst then s.haz else hazAfterCmd s.win s.haz
        lc := .ready
        seqIdx := (initTable s.cfg).length }
      (if s.cfg.hasRst then s.haz else hazAfterCmd s.win s.haz) .reset := by
  have hinit := initSequence_does (s.resetPulse.setLc .reset)
  rw [State.setLc_win, State.setLc_haz, hazAfterCmd_resetPulse] at hinit
  have hboth := (resetPulse_does s _ .reset).bind (k := initSequence) hinit
  rw [resetPulse_eq] at hboth ⊢
  rw [← State.performs_performs]
  exact hboth

/-- Settles O34: BEGIN is the pulse and the init sequence, whose err leaves RESET. -/
theorem beginResetsAndInitialises : Obligations.BeginResetsAndInitialises := by
  intro s pulse evs haz
  refine ⟨exec_dead _, fun hlive hok => ?allOk, fun k hk hlive herr => ?firstErr⟩
  case allOk =>
    rw [exec_beginOp_live hlive, (beginSequence_does s).ok hok, finish_go]
    rfl
  case firstErr =>
    obtain ⟨seq, hstop⟩ := (beginSequence_does s).err k hk herr
    refine ⟨seq, fun _ hbegin => absurd rfl hbegin, ?_⟩
    rw [exec_beginOp_live hlive, hstop, finish_stop]
    rfl

end Sys2Proof.Machine
end

section
/-! SUPPORT and PROOF. QUERY's items (43_facade.md R187, 10_state.md R45), and the lifecycle gates
nothing (R188): every piece of pseudocode runs the same from any lifecycle state. -/

namespace Sys2Proof.Machine

/-! ## QUERY (R187) -/

section
variable {idx : Byte} {s : State}

theorem exec_query_listed {v : Nat} (h : s.dead = false) (hitem : queryItem s idx = some v) :
    exec (.query idx) s = .next (s.responds 2 .ok (BitVec.ofNat 64 v)) := by
  rw [exec, execQuery, start_live h, Flow.bind_go, hitem, Option.isSome_some, require_true, finish_go]
  rfl

theorem exec_query_none (h : s.dead = false) (hitem : queryItem s idx = none) :
    exec (.query idx) s = .next (s.responds 2 .illegalOp 0) := by
  rw [exec, execQuery, start_live h, Flow.bind_go, hitem, Option.isSome_none, require_false,
    finish_stop]
  rfl

end

/-- Settles O43: the chain of the statement is `queryItem`, index by index. -/
theorem queryReadsItems : Obligations.QueryReadsItems := by
  intro idx s item
  have hitem : queryItem s idx = item := by
    iterate 11
      refine iteInduction (motive := (queryItem s idx = ·)) (fun hidx => ?listed) fun _ => ?_
      case listed => subst hidx; rfl
    exact queryItem_unlisted s (by bv_omega)
  rw [← hitem]
  exact ⟨exec_dead _, fun hlive v => exec_query_listed hlive, exec_query_none⟩

/-! ## Runs from two lifecycle states (R188) -/

/-- The same stand of an operation with the lifecycle `l`. -/
def Flow.setLc (l : Lifecycle) : Flow → Flow
  | .go s => .go (s.setLc l)
  | .stop e s => .stop e (s.setLc l)

/-- Two runs of `k` from states that differ in the lifecycle alone end alike, in such states. -/
def LcBlind (k : State → Flow) : Prop := ∀ s l, ∃ l', k (s.setLc l) = (k s).setLc l'

theorem Flow.response_setLc (v : U64) (l : Lifecycle) (f : Flow) :
    (f.setLc l).response v = f.response v := by cases f <;> rfl

theorem Flow.response_status (v w : U64) (f : Flow) :
    (f.response v).status = (f.response w).status := by cases f <;> rfl

theorem Flow.state_setLc (l : Lifecycle) (f : Flow) : (f.setLc l).state = f.state.setLc l := by
  cases f <;> rfl

theorem LcBlind.bind {k m : State → Flow} (hk : LcBlind k) (hm : LcBlind m) :
    LcBlind fun s => (k s).bind m := fun s l => by
  obtain ⟨l', hl'⟩ := hk s l
  simp only [hl']
  cases k s with
  | go t => exact hm t l'
  | stop e t => exact ⟨l', rfl⟩

/-! ## The shared operations -/

theorem start_lcBlind : LcBlind start := fun s l => ⟨l, by
  cases h : s.dead
  · rw [start_live h, start_live (s := s.setLc l) h]; rfl
  · rw [start_dead h, start_dead (s := s.setLc l) h]; rfl⟩

/-- A check of the state that does not read the lifecycle. -/
theorem require_lcBlind {c : State → Bool} (e : Status) (hc : ∀ s l, c (s.setLc l) = c s) :
    LcBlind fun s => require (c s) e s := fun s l => ⟨l, by
  simp only [hc s l]
  cases c s <;> rfl⟩

/-- The check of FBRD and QUERY, which reads the state the operation starts in. -/
theorem start_require_lcBlind {c : State → Bool} (e : Status) (hc : ∀ s l, c (s.setLc l) = c s) :
    LcBlind fun s => (start s).bind (require (c s) e) := fun s l => by
  simp only [hc s l]
  exact start_lcBlind.bind (require_lcBlind (c := fun _ => c s) e fun _ _ => rfl) s l

theorem transact_lcBlind (bs : List Byte) : LcBlind (transact bs) := fun s l => ⟨l, by
  rw [transact, transact, show (s.setLc l).answer 0 = s.answer 0 from rfl]
  cases s.answer 0 <;> rfl⟩

theorem sendChunks_lcBlind (cs : List (List Byte)) : LcBlind (sendChunks cs) := by
  induction cs with
  | nil => exact fun s l => ⟨l, rfl⟩
  | cons c cs ih => exact (transact_lcBlind c).bind ih

theorem send_lcBlind (bs : List Byte) (isData : Bool) (c : Nat) : LcBlind (send bs isData c) :=
  fun s l => by
    obtain ⟨l', hl'⟩ :=
      sendChunks_lcBlind (chunks c bs) ((s.driveDc isData).track isData bs.length) l
    refine ⟨l', ?_⟩
    rw [send, send, ← hl', send_prologue, send_prologue]
    rfl

theorem issueEntry_lcBlind (e : InitRecord) : LcBlind (issueEntry e) := by
  cases e with
  | wait ms => exact fun s l => ⟨l, rfl⟩
  | cmd c d =>
    refine (send_lcBlind [c] false chunkDefault).bind fun s l => ?_
    by_cases hd : d = []
    · exact ⟨l, by rw [if_pos hd, if_pos hd]; rfl⟩
    · rw [if_neg hd, if_neg hd]
      exact send_lcBlind d true chunkDefault s l

theorem issueAll_lcBlind (es : List InitRecord) : LcBlind (issueAll es) := by
  induction es with
  | nil => exact fun s l => ⟨l, rfl⟩
  | cons e es ih => exact (issueEntry_lcBlind e).bind fun s => ih (s.setSeqIdx (s.seqIdx + 1))

/-- The sequence writes READY over whatever the lifecycle was. -/
theorem initSequence_lcBlind : LcBlind initSequence := by
  have hissue : LcBlind fun s => issueAll (initTable s.cfg) (s.setSeqIdx 0) :=
    fun s => issueAll_lcBlind (initTable s.cfg) (s.setSeqIdx 0)
  exact hissue.bind fun s l => ⟨.ready, rfl⟩

theorem resetPulse_setLc (s : State) (l : Lifecycle) :
    (s.setLc l).resetPulse = s.resetPulse.setLc l := by
  rw [resetPulse_eq, resetPulse_eq]
  rfl

/-- The common beginning of RESET and BEGIN writes RESET over it. -/
theorem resetPulse_lcBlind : LcBlind fun s => .go (s.resetPulse.setLc .reset) :=
  fun s l => ⟨.reset, congrArg (fun t => Flow.go (t.setLc .reset)) (resetPulse_setLc s l)⟩

/-- A command whose code is a parameter of the block. -/
theorem sendCmd_lcBlind (code : Params → Byte) :
    LcBlind fun s => send [code s.cfg] false chunkDefault s :=
  fun s => send_lcBlind [code s.cfg] false chunkDefault s

theorem windowSeq_lcBlind (x0 y0 x1 y1 : Nat) : LcBlind (windowSeq x0 y0 x1 y1) :=
  (sendCmd_lcBlind Params.cmdCaset).bind <|
  (send_lcBlind [hi8 x0, lo8 x0, hi8 x1, lo8 x1] true chunkDefault).bind <|
  (sendCmd_lcBlind Params.cmdPaset).bind <|
  (send_lcBlind [hi8 y0, lo8 y0, hi8 y1, lo8 y1] true chunkDefault).bind <|
  (sendCmd_lcBlind Params.cmdRamwr).bind fun _ l => ⟨l, rfl⟩

theorem fullWindowSeq_lcBlind : LcBlind fullWindowSeq :=
  fun s => windowSeq_lcBlind 0 0 (s.cfg.width - 1) (s.cfg.height - 1) s

/-- The pixel send, whose image may be read from the state but not from its lifecycle. -/
theorem sendImage_lcBlind (img : State → List Byte) (himg : ∀ s l, img (s.setLc l) = img s) :
    LcBlind fun s => sendImage (img s) s := fun s l => by
  simp only [himg s l]
  exact send_lcBlind (encodeLanes s.cfg.lanes.val (img s)) true chunkDefault s l

/-! ## Every operation -/

/-- QUERY 0x04 alone reads the lifecycle. -/
theorem queryItem_setLc (s : State) (l : Lifecycle) {idx : Byte} (h : idx ≠ 0x04) :
    queryItem (s.setLc l) idx = queryItem s idx := by
  unfold queryItem
  split
  case h_5 h4 => exact absurd (BitVec.eq_of_toNat_eq h4) h
  all_goals rfl

theorem queryItem_isSome_setLc (s : State) (l : Lifecycle) (idx : Byte) :
    (queryItem (s.setLc l) idx).isSome = (queryItem s idx).isSome := by
  by_cases h : idx = 0x04
  · subst h; rfl
  · rw [queryItem_setLc s l h]

theorem okResult_setLc (s : State) (l : Lifecycle) {i : Instr} (h : i ≠ .query 0x04) :
    okResult (s.setLc l) i = okResult s i := by
  cases i with
  | query idx => rw [okResult, okResult, queryItem_setLc s l fun hidx => h (hidx ▸ rfl)]
  | _ => rfl

/-- Every operation is the completion of a piece of pseudocode that does not depend on the lifecycle. -/
theorem exec_lcBlind (i : Instr) : ∃ k, LcBlind k ∧
    ∀ s, exec i s = .next (finish i.length (okResult s i) (k s)) := by
  cases i with
  | cvt565 r g b => exact ⟨start, start_lcBlind, fun _ => rfl⟩
  | sendc chunk payload =>
    exact ⟨_, start_lcBlind.bind (send_lcBlind payload false (chunkOf chunk)), fun _ => rfl⟩
  | sendd chunk payload =>
    exact ⟨_, start_lcBlind.bind (send_lcBlind payload true (chunkOf chunk)), fun _ => rfl⟩
  | resetOp => exact ⟨_, start_lcBlind.bind resetPulse_lcBlind, fun _ => rfl⟩
  | initOp => exact ⟨_, start_lcBlind.bind initSequence_lcBlind, fun _ => rfl⟩
  | beginOp =>
    exact ⟨_, start_lcBlind.bind (resetPulse_lcBlind.bind initSequence_lcBlind), fun _ => rfl⟩
  | setwin x0 y0 x1 y1 =>
    exact ⟨_, start_lcBlind.bind ((require_lcBlind .geometryError fun _ _ => rfl).bind
      (windowSeq_lcBlind x0.toNat y0.toNat x1.toNat y1.toNat)), fun _ => rfl⟩
  | setwinf => exact ⟨_, start_lcBlind.bind fullWindowSeq_lcBlind, fun _ => rfl⟩
  | clear r g b =>
    exact ⟨_, start_lcBlind.bind (m := fun s => .go (s.fbClear r g b)) fun _ l => ⟨l, rfl⟩,
      fun _ => rfl⟩
  | fbwr x y r g b =>
    exact ⟨_, start_lcBlind.bind ((require_lcBlind .geometryError fun _ _ => rfl).bind
      (m := fun s => .go (s.fbWrite (fbAddr s.cfg.width x.toNat y.toNat 0) [r, g, b]))
      fun _ l => ⟨l, rfl⟩), fun _ => rfl⟩
  | fbrd x y => exact ⟨_, start_require_lcBlind .geometryError fun _ _ => rfl, fun _ => rfl⟩
  | display =>
    exact ⟨_, start_lcBlind.bind (fullWindowSeq_lcBlind.bind
      (sendImage_lcBlind State.fbImage fun _ _ => rfl)), fun _ => rfl⟩
  | dispimg w h pixels =>
    exact ⟨_, start_lcBlind.bind ((require_lcBlind .geometryError fun _ _ => rfl).bind
      (fullWindowSeq_lcBlind.bind (sendImage_lcBlind (fun _ => pixels) fun _ _ => rfl))),
      fun _ => rfl⟩
  | query idx =>
    exact ⟨_, start_require_lcBlind .illegalOp fun s l => queryItem_isSome_setLc s l idx,
      fun _ => rfl⟩

/-- The response an operation appends is that of its pseudocode. -/
theorem finish_responses_of_exec {i : Instr} {s : State} {v : U64} {f : Flow}
    (h : exec i s = .next (finish i.length v f)) :
    (finish i.length v f).responses = s.responses ++ [f.response v] := by
  obtain ⟨t, r, ht, hresp, -⟩ := oneResponsePerOperation i s
  obtain rfl := Host.Outcome.next.inj (h.symm.trans ht)
  rw [finish_responses] at hresp ⊢
  rw [(List.append_inj' hresp rfl).1]

/-- Settles O44: each operation's two runs complete alike (`exec_lcBlind`), with the same value on OK
but for QUERY 0x04 (`okResult_setLc`). -/
theorem lifecycleGatesNothing : Obligations.LifecycleGatesNothing := by
  intro i s l
  obtain ⟨k, hblind, hexec⟩ := exec_lcBlind i
  obtain ⟨l', hl'⟩ := hblind s l
  have hother := hexec (s.setLc l)
  refine ⟨_, _, _, _, hexec s, hother, ?_, finish_responses_of_exec (hexec s),
    finish_responses_of_exec (s := s.setLc l) hother, ?_, fun hi => ?_⟩
  · rw [hl']
    cases k s <;> rfl
  · rw [hl', Flow.response_setLc]
    exact Flow.response_status _ _ _
  · rw [hl', Flow.response_setLc, okResult_setLc s l hi]

end Sys2Proof.Machine
end

section
/-! SUPPORT and PROOF. The errors (60_exceptions.md): the precise ones (R218), TRANSPORT_ERROR and the bus
agent's answers (R213), which operation raises which (R210, R212), and that no step stops (R217). -/

namespace Sys2Proof.Machine

/-! ## How an effect ends -/

/-- A response of an error comes from pseudocode that stopped at it. -/
theorem Flow.stop_of_response {f : Flow} {w v : U64} {e : Status} (h : f.response w = ⟨e, v⟩)
    (he : e ≠ .ok) : ∃ t, f = .stop e t := by
  cases f with
  | go t => exact absurd (congrArg Response.status h).symm he
  | stop e' t =>
    obtain rfl : e' = e := congrArg Response.status h
    exact ⟨t, rfl⟩

/-- The next state is the completion of an effect, whose response is the one appended. -/
theorem exec_effect_of_response {i : Instr} {s t : State} {r : Response} (hexec : exec i s = .next t)
    (hresp : t.responses = s.responses ++ [r]) :
    ∃ f v evs, t = finish i.length v f ∧ f.response v = r ∧ Effect s f evs := by
  obtain ⟨f, v, evs, he, heff⟩ := exec_effect i s
  obtain rfl := Host.Outcome.next.inj (hexec.symm.trans he)
  rw [finish_responses_of_exec he] at hresp
  exact ⟨f, v, evs, rfl, List.singleton_inj.mp (List.append_cancel_left hresp), heff⟩

section
variable {s t : State} {f : Flow} {evs : List Event} {e : Status}

/-- An error other than TRANSPORT_ERROR is raised before anything else is done (R216). -/
theorem Effect.eq_of_precise_stop (h : Effect s (.stop e t) evs) (he : e ≠ .transportError) :
    t = s := by
  cases h with
  | dead => rfl
  | turnedAway => rfl
  | bus hlive f evs lim hr hl hlc hseq =>
    obtain ⟨htransport, -⟩ := hr.err e t rfl
    exact absurd htransport he

/-- TRANSPORT_ERROR is raised by a stretch on the bus, at its last transaction (R213). -/
theorem Effect.transport_stop (h : Effect s (.stop .transportError t) evs) :
    t.win = .unknown ∧ (∃ k, xferCount evs = k + 1 ∧ BusErrAt s k) ∧
      ∃ pre bs, evs = pre ++ [.xfer bs] := by
  cases h with
  | turnedAway hlive e he => rcases he with he | he <;> cases he
  | bus hlive f evs lim hr hl hlc hseq => exact (hr.err _ t rfl).2

/-- Any other end finds every transaction answered ok. -/
theorem Effect.busOk (h : Effect s f evs) (hf : ∀ t, f ≠ .stop .transportError t) :
    BusOk s (xferCount evs) := by
  cases h with
  | bus hlive f evs lim hr hl hlc hseq =>
    cases f with
    | go t => exact hr.ok t rfl
    | stop e t =>
      obtain ⟨rfl, -⟩ := hr.err e t rfl
      exact absurd rfl (hf t)
  | _ => exact busOk_zero s

end

/-- Settles O13: a precise error stops in the state it starts in (`Effect.eq_of_precise_stop`). -/
theorem preciseErrorsHaveNoEffect : Obligations.PreciseErrorsHaveNoEffect := by
  intro i s t e v hexec hresp he
  obtain ⟨hok, htransport⟩ : e ≠ .ok ∧ e ≠ .transportError := by
    rcases he with rfl | rfl | rfl <;> decide
  obtain ⟨f, w, evs, rfl, hr, heff⟩ := exec_effect_of_response hexec hresp
  obtain ⟨u, rfl⟩ := Flow.stop_of_response hr hok
  rw [heff.eq_of_precise_stop htransport, finish_stop]

/-- Settles O47: the effect of the operation is read at its end, `Effect.transport_stop` where it is
TRANSPORT_ERROR and `Effect.busOk` where it is not. -/
theorem transportErrorTellsAnswers : Obligations.TransportErrorTellsAnswers := by
  intro i s
  obtain ⟨f, v, evs, he, heff⟩ := exec_effect i s
  refine ⟨_, evs, f.response v, he, heff.trace.1, finish_responses_of_exec he,
    fun bs => heff.xfer_size, heff.xfers, fun hstatus => ?err, fun hstatus => heff.busOk ?ok⟩
  case err =>
    obtain ⟨t, rfl⟩ := Flow.stop_of_response (v := (f.response v).result)
      (congrArg (Response.mk · _) hstatus) (by decide)
    obtain ⟨hwin, hanswers, hlast⟩ := heff.transport_stop
    exact ⟨hanswers, hwin, rfl, hlast⟩
  case ok =>
    rintro t rfl
    exact hstatus rfl

/-! ## Which errors an operation of a live block can raise -/

/-- The errors of pseudocode behind a check that raises `e`: the check's own where it fails. -/
def behindCheck (check : Bool) (e : Status) (es : List Status) : List Status :=
  if check then es else [e]

@[simp] theorem mem_behindCheck {check : Bool} {e e' : Status} {es : List Status} :
    e' ∈ behindCheck check e es ↔ check = false ∧ e' = e ∨ check = true ∧ e' ∈ es := by
  cases check <;> simp [behindCheck]

/-- The errors an operation can raise in the live state `s`, by the last column of the table of R210 and
the checks of R212 and R214. -/
def raisable (s : State) : Instr → List Status
  | .cvt565 _ _ _ => []
  | .sendc _ _ => [.transportError]
  | .sendd _ _ => [.transportError]
  | .resetOp => []
  | .initOp => [.transportError]
  | .beginOp => [.transportError]
  | .setwin x0 y0 x1 y1 =>
    behindCheck (validWin s.cfg x0.toNat y0.toNat x1.toNat y1.toNat) .geometryError [.transportError]
  | .setwinf => [.transportError]
  | .clear _ _ _ => []
  | .fbwr x y _ _ _ => behindCheck (onPanel s.cfg x.toNat y.toNat) .geometryError []
  | .fbrd x y => behindCheck (onPanel s.cfg x.toNat y.toNat) .geometryError []
  | .display => [.transportError]
  | .dispimg w h _ =>
    behindCheck (decide (w.toNat = s.cfg.width ∧ h.toNat = s.cfg.height)) .geometryError
      [.transportError]
  | .query idx => behindCheck (queryItem s idx).isSome .illegalOp []

/-- Pseudocode that ends in no error but those of `es`. -/
def Flow.RaisesOnly (es : List Status) (f : Flow) : Prop := ∀ e t, f = .stop e t → e ∈ es

section
variable {es : List Status} {s : State} {f : Flow} {k : State → Flow}

theorem Flow.raisesOnly_go (s : State) : (Flow.go s).RaisesOnly es := fun _ _ h => nomatch h

theorem Flow.RaisesOnly.bind (hf : f.RaisesOnly es) (hk : ∀ t, (k t).RaisesOnly es) :
    (f.bind k).RaisesOnly es := by
  cases f with
  | go t => exact hk t
  | stop e t => exact hf

/-- In a live block the check of `S.dead` raises nothing. -/
theorem Flow.RaisesOnly.started (hlive : s.dead = false) (hk : (k s).RaisesOnly es) :
    ((start s).bind k).RaisesOnly es := by
  rwa [start_live hlive, Flow.bind_go]

theorem Flow.RaisesOnly.checked (check : Bool) (e : Status) (hk : (k s).RaisesOnly es) :
    ((require check e s).bind k).RaisesOnly (behindCheck check e es) := by
  cases check with
  | true => exact hk
  | false =>
    rintro e' t ⟨⟩
    exact List.mem_singleton_self e

theorem require_raisesOnly (check : Bool) (e : Status) (s : State) :
    (require check e s).RaisesOnly (behindCheck check e []) := by
  rw [← Flow.bind_go_right (require check e s)]
  exact .checked check e (Flow.raisesOnly_go s)

/-- A stretch on the bus knows no other error. -/
theorem Reaches.raisesOnly {bound : Nat} {lim : Option Nat}
    (h : ∃ evs, Reaches bound lim s f evs) : f.RaisesOnly [.transportError] := fun e t hf => by
  obtain ⟨evs, hr⟩ := h
  exact List.mem_singleton.mpr (hr.err e t hf).1

end

theorem send_raisesOnly (bs : List Byte) (isData : Bool) {c : Nat} (hc : 1 ≤ c) (s : State) :
    (send bs isData c s).RaisesOnly [.transportError] :=
  Reaches.raisesOnly (send_reaches none bs isData hc s)

theorem initSequence_raisesOnly (s : State) : (initSequence s).RaisesOnly [.transportError] :=
  Reaches.raisesOnly (initSequence_reaches none s)

theorem windowSeq_raisesOnly (x0 y0 x1 y1 : Nat) (s : State) :
    (windowSeq x0 y0 x1 y1 s).RaisesOnly [.transportError] :=
  Reaches.raisesOnly (windowSeq_reaches x0 y0 x1 y1 s)

theorem fullWindowSeq_raisesOnly (s : State) : (fullWindowSeq s).RaisesOnly [.transportError] :=
  windowSeq_raisesOnly 0 0 (s.cfg.width - 1) (s.cfg.height - 1) s

theorem sendImage_raisesOnly (img : List Byte) (s : State) :
    (sendImage img s).RaisesOnly [.transportError] :=
  Reaches.raisesOnly (sendImage_reaches none img s)

/-- Every operation of a live block is pseudocode that raises its own errors only. -/
theorem exec_raisesOnly (i : Instr) {s : State} (hlive : s.dead = false) :
    ∃ f, exec i s = .next (finish i.length (okResult s i) f) ∧ f.RaisesOnly (raisable s i) := by
  cases i with
  | cvt565 r g b => exact ⟨_, rfl, start_live hlive ▸ Flow.raisesOnly_go s⟩
  | sendc chunk p => exact ⟨_, rfl, .started hlive (send_raisesOnly p false (chunkOf_pos chunk) s)⟩
  | sendd chunk p => exact ⟨_, rfl, .started hlive (send_raisesOnly p true (chunkOf_pos chunk) s)⟩
  | resetOp => exact ⟨_, rfl, .started hlive (Flow.raisesOnly_go _)⟩
  | initOp => exact ⟨_, rfl, .started hlive (initSequence_raisesOnly s)⟩
  | beginOp => exact ⟨_, rfl, .started hlive (initSequence_raisesOnly _)⟩
  | setwin x0 y0 x1 y1 =>
    exact ⟨_, rfl, .started hlive (.checked _ _ (windowSeq_raisesOnly _ _ _ _ s))⟩
  | setwinf => exact ⟨_, rfl, .started hlive (fullWindowSeq_raisesOnly s)⟩
  | clear r g b => exact ⟨_, rfl, .started hlive (Flow.raisesOnly_go _)⟩
  | fbwr x y r g b => exact ⟨_, rfl, .started hlive (.checked _ _ (Flow.raisesOnly_go _))⟩
  | fbrd x y => exact ⟨_, rfl, .started hlive (require_raisesOnly _ _ s)⟩
  | display =>
    exact ⟨_, rfl, .started hlive
      ((fullWindowSeq_raisesOnly s).bind fun t => sendImage_raisesOnly t.fbImage t)⟩
  | dispimg w h pixels =>
    exact ⟨_, rfl, .started hlive (.checked _ _
      ((fullWindowSeq_raisesOnly s).bind (sendImage_raisesOnly pixels)))⟩
  | query idx => exact ⟨_, rfl, .started hlive (require_raisesOnly _ _ s)⟩

/-- The status of a response is OK or one of the operation's errors. -/
theorem status_mem_raisable {i : Instr} {s t : State} {e : Status} {v : U64} (hlive : s.dead = false)
    (hexec : exec i s = .next t) (hresp : t.responses = s.responses ++ [⟨e, v⟩]) (he : e ≠ .ok) :
    e ∈ raisable s i := by
  obtain ⟨f, hf, hraises⟩ := exec_raisesOnly i hlive
  obtain rfl := Host.Outcome.next.inj (hexec.symm.trans hf)
  rw [finish_responses_of_exec hf] at hresp
  obtain ⟨u, hu⟩ := Flow.stop_of_response
    (List.singleton_inj.mp (List.append_cancel_left hresp)) he
  exact hraises e u hu

theorem configError_not_mem_raisable (s : State) (i : Instr) : .configError ∉ raisable s i := by
  cases i <;> simp [raisable]

theorem query_of_illegalOp_mem {s : State} {i : Instr} (h : .illegalOp ∈ raisable s i) :
    ∃ idx, i = .query idx := by
  cases i with
  | query idx => exact ⟨idx, rfl⟩
  | _ => simp [raisable] at h

/-- Settles O15: what is raised is in the list of `raisable`, which is read operation by operation. -/
theorem statusesOfOperations : Obligations.StatusesOfOperations := by
  refine ⟨⟨rfl, rfl, rfl, rfl, rfl⟩, fun i s t e v hlive hexec hresp => ?_⟩
  have hmem : e ≠ .ok → e ∈ raisable s i := status_mem_raisable hlive hexec hresp
  refine ⟨?config, ?illegal, ?transport⟩
  case config =>
    rintro rfl
    exact configError_not_mem_raisable s i (hmem (by decide))
  case illegal =>
    rintro rfl
    exact query_of_illegalOp_mem (hmem (by decide))
  case transport =>
    rintro rfl
    have hraised := hmem (by decide)
    cases i <;> simp [raisable] at hraised ⊢

/-! ## GEOMETRY_ERROR (R212) -/

theorem onPanel_eq_false_iff (p : Params) (x y : Nat) :
    onPanel p x y = false ↔ p.width ≤ x ∨ p.height ≤ y := by
  rw [onPanel, decide_eq_false_iff_not]
  omega

/-- Settles O14: GEOMETRY_ERROR is in the list of `raisable` only where a check fails, and a failed check
turns the operation away. -/
theorem geometryErrorCases : Obligations.GeometryErrorCases := by
  intro i s hlive
  constructor
  · intro hexec
    have hraised : .geometryError ∈ raisable s i :=
      status_mem_raisable hlive hexec rfl (by decide)
    cases i with
    | setwin x0 y0 x1 y1 =>
      have hcheck : validWin s.cfg x0.toNat y0.toNat x1.toNat y1.toNat = false := by
        simpa [raisable] using hraised
      exact .inl ⟨x0, y0, x1, y1, rfl, fun hvalid =>
        Bool.eq_false_iff.mp hcheck ((validWin_iff _ _ _ _ _).mpr hvalid)⟩
    | fbwr x y r g b =>
      have hcheck : onPanel s.cfg x.toNat y.toNat = false := by simpa [raisable] using hraised
      exact .inr (.inl ⟨x, y, r, g, b, rfl, (onPanel_eq_false_iff _ _ _).mp hcheck⟩)
    | fbrd x y =>
      have hcheck : onPanel s.cfg x.toNat y.toNat = false := by simpa [raisable] using hraised
      exact .inr (.inr (.inl ⟨x, y, rfl, (onPanel_eq_false_iff _ _ _).mp hcheck⟩))
    | dispimg w h px =>
      have hcheck : ¬ (w.toNat = s.cfg.width ∧ h.toNat = s.cfg.height) := by
        simpa [raisable] using hraised
      exact .inr (.inr (.inr ⟨w, h, px, rfl, not_and_or.mp hcheck⟩))
    | _ => simp [raisable] at hraised
  · rintro (⟨x0, y0, x1, y1, rfl, hinvalid⟩ | ⟨x, y, r, g, b, rfl, hoff⟩ | ⟨x, y, rfl, hoff⟩ |
      ⟨w, h, px, rfl, hsize⟩)
    · exact exec_setwin_invalid hlive
        (Bool.eq_false_iff.mpr (mt (validWin_iff _ _ _ _ _).mp hinvalid))
    · exact exec_fbwr_offPanel r g b hlive hoff
    · exact exec_fbrd_offPanel hlive hoff
    · exact exec_dispimg_mismatch px hlive (not_and_or.mpr hsize)

/-! ## Construction that fails, and a step that always answers -/

/-- Settles O9: no case of R211 leaves a valid construction (`constructionLeavesTable`), and the dead
block does nothing (`exec_dead`). -/
theorem failedConstructionIsDead : Obligations.FailedConstructionIsDead := by
  intro p pl hcase
  obtain ⟨-, hinvalid⟩ := constructionLeavesTable p pl
  obtain ⟨hdead, hbus⟩ := hinvalid <| by
    rintro ⟨hw1, hw2, hh1, hh2, hdc, hrst, hopens⟩
    rcases hcase with h | h | h | h | h | ⟨hline, h⟩ | h
    iterate 4 exact absurd h (by omega)
    · simp [hdc] at h
    · simp [hrst hline] at h
    · simp [hopens] at h
  exact ⟨hdead, hbus, rfl, fun i bs => exec_dead i hdead⟩

/-- Settles O50: an operation answers (`exec_effect`), an illegal opcode is a response and a truncated
stream waits. -/
theorem everyStepAnswers : Obligations.EveryStepAnswers := by
  intro s
  cases h : fetch s with
  | op i rest =>
    obtain ⟨f, v, evs, he, -⟩ := exec_effect i s
    exact ⟨_, (stepRunsDecodedOperation s i rest h).trans he⟩
  | illegal b => exact ⟨_, step_illegal h⟩
  | truncated => exact ⟨_, step_truncated h⟩

end Sys2Proof.Machine
end

section
/-! SUPPORT and PROOF. Reset and hazards (70_reset_and_hazards.md): construction is the only reset (R242),
the reset state is one construction (R240), and the host's move keeps the invariant (R255). -/

namespace Sys2Proof.Machine

/-- No effect clears a hazard bit (10_state.md R42): a stretch on the bus only raises some. -/
theorem Effect.haz_kept {s : State} {f : Flow} {evs : List Event} (h : Effect s f evs) :
    s.haz &&& f.state.haz = s.haz := by
  cases h with
  | bus hlive f evs lim hr hl hlc hseq => exact hr.haz
  | _ => exact BitVec.and_self

/-- Settles O48: a completed operation keeps the hazards of its effect and advances `S.opPos`, and the
writers of the frame buffer are CLEAR and FBWR alone (`writersOfBufferAndLifecycle`). -/
theorem noOperationResetsBlock : Obligations.NoOperationResetsBlock := by
  refine ⟨fun s t hstep => ?_, fun i s t hi hexec => ?_⟩
  · rcases step_cases hstep with ⟨-, rfl⟩ | ⟨f, v, evs, n, rfl, heff, -, -⟩
    · exact ⟨BitVec.and_self, le_rfl⟩
    · rw [finish_haz, finish_opPos, heff.opPos]
      exact ⟨heff.haz_kept, Nat.le_add_right _ _⟩
  · obtain ⟨t', ht', hfb, -⟩ := writersOfBufferAndLifecycle i s
    obtain rfl := Host.Outcome.next.inj (hexec.symm.trans ht')
    rcases hfb with hkept | ⟨r, g, b, rfl⟩ | ⟨x, y, r, g, b, rfl⟩
    · exact hkept
    all_goals simp at hi

/-- Settles O10: the checks of the standard parameters pass, so the reset state is what
`constructionLeavesTable` says of a valid construction. -/
theorem resetIsConstruction : Obligations.ResetIsConstruction := by
  obtain ⟨hvalid, -⟩ := constructionLeavesTable Params.standard ⟨true, true, true⟩
  obtain ⟨-, -, -, -, -, -, -, -, hfb, hcfg, htrace⟩ := hvalid (by decide)
  rw [← reset_eq_construct] at hfb hcfg htrace
  exact ⟨reset_eq_construct, congrArg Params.width hcfg, congrArg Params.height hcfg, hfb, htrace, rfl⟩

/-- Settles O53: of the invariant only the bound of `S.opPos` speaks of the stream, which grows. -/
theorem supplyKeepsInvariant : Obligations.SupplyKeepsInvariant := by
  intro s bs hs
  have hgrows : s.stream.length ≤ (s.supply bs).stream.length :=
    (List.prefix_append s.stream bs).length_le
  exact { hs with position := hs.position.trans hgrows }

end Sys2Proof.Machine
end
